-- ==== Sys2Proof/Word.lean ====
section
/-! DEFINITION. The units of the wire: bytes and byte sequences (spec/00_scope.md R1 and section 5.2). -/

namespace Sys2Proof

/-- A byte, 8 bits, unsigned (R1). -/
abbrev Byte := BitVec 8

/-- A finite sequence of bytes, first element at index 0 (00_scope.md section 5.2). -/
abbrev Bytes := List Byte

/-- The 16-bit value of a two-byte big-endian field of the frame (R34). -/
abbrev Len16 := BitVec 16

end Sys2Proof
end

