-- ==== Sys2Proof/Config.lean ====
section
/-! DEFINITION. The constants and parameters of the block (spec/00_scope.md R2 to R7). None can be changed by an
operation (spec/20_memory.md R42). -/

namespace Sys2Proof.Config

/-- `CAPACITY`: size of the receive buffer and largest frame, 100 in this hardware (R2). -/
@[simp] abbrev capacity : Nat := 100

/-- `START_DELIM` (R3). -/
@[simp] abbrev startDelim : Byte := 0x7E#8

/-- `FRAME_TYPE`, "transmit request" (R3). -/
@[simp] abbrev frameType : Byte := 0x10#8

/-- `NET_ADDR`, the network-address placeholder (R3). -/
@[simp] abbrev netAddr : Len16 := 0xFFFE#16

/-- `RADIUS` (R3). -/
@[simp] abbrev radius : Byte := 0x00#8

/-- `OPTIONS` (R3). -/
@[simp] abbrev options : Byte := 0x00#8

/-- `LEN_FIELD_END`: the count at which the length field is complete (R4). -/
@[simp] abbrev lenFieldEnd : Nat := 3

/-- `LEN_ADJUST`: total frame size minus the value of the length field; also the size of the smallest frame a
receiver emits (R4, R92). -/
@[simp] abbrev lenAdjust : Nat := 4

/-- `LEN_OVERHEAD`: the length field's value for an empty payload (R4). -/
@[simp] abbrev lenOverhead : Nat := 14

/-- `PAYLOAD_OFFSET` (R4; spec/90_conflicts.md C4). -/
@[simp] abbrev payloadOffset : Nat := 17

/-- `FRAME_OVERHEAD`: total frame size minus payload size (R4; spec/90_conflicts.md C1). -/
@[simp] abbrev frameOverhead : Nat := 18

/-- `CHK_FIRST`: offset of the first byte the checksum covers (R4). -/
@[simp] abbrev chkFirst : Nat := 3

/-- `PAYLOAD_MAX`: what an extracted payload is clamped to, `CAPACITY - FRAME_OVERHEAD` (R5). -/
@[simp] abbrev payloadMax : Nat := capacity - frameOverhead

/-- `ANGLE_MIN` (R7). -/
@[simp] abbrev angleMin : Nat := 1

/-- `ANGLE_MAX` (R7). -/
@[simp] abbrev angleMax : Nat := 180

/-- `IDLE_DEADLINE` (R6): `none`, or a positive duration in a unit the platform chooses. OPEN in the spec
(spec/92_eei_decisions.md D12), so it has no value here. No rule reads it and no definition of this model does: the
event `RX_TIMEOUT` is an input (R90). -/
opaque idleDeadline : Option { d : Nat // 0 < d }

end Sys2Proof.Config
end

