-- ==== Sys2Proof/Machine/Operands.lean ====
section
/-! DEFINITION. The operand forms of the block: byte order and slices (spec/00_scope.md section 5), the checksum of a
byte range (spec/40_checksum.md), the parts of a frame value (spec/20_memory.md R32) and the decimal reading of a
payload (spec/43_frame_check_extract.md). -/

namespace Sys2Proof.Machine

/-- `BE16(h, l)` (00_scope.md section 5.1; R34). -/
def be16 (h l : Byte) : Len16 := h ++ l

/-- `hi8(v) = v[15:8]`. -/
def hi8 (v : Len16) : Byte := v.extractLsb' 8 8

/-- `lo8(v) = v[7:0]`. -/
def lo8 (v : Len16) : Byte := v.extractLsb' 0 8

/-- `s[i..j]`, both ends included; empty when `j < i` (00_scope.md section 5.2). -/
def slice (s : Bytes) (i j : Nat) : Bytes := (s.drop i).take (j + 1 - i)

/-- `sum(s)`, the mathematical sum of the elements (00_scope.md section 5.2). -/
def byteSum (s : Bytes) : Nat := (s.map BitVec.toNat).sum

/-- The number a sequence of bytes spells, the first the most significant (R34). -/
def bigEndian (s : Bytes) : Nat := s.foldl (fun v b => 256 * v + b.toNat) 0

/-- `CHK`: an 8-bit accumulator takes every byte in turn; the result is `0xFF` minus it (R65). -/
def checksum (s : Bytes) : Byte := 0xFF#8 - s.foldl (fun acc b => acc + b) 0#8

/-- The bytes of a frame that its checksum covers: offsets 3 to `T - 2` (R32, R48). -/
def coveredRange (f : Bytes) : Bytes := slice f Config.chkFirst (f.length - 2)

/-- The test of `VERIFY`: the trailing byte is the checksum of the covered range (R100). -/
def checksumOk (f : Bytes) : Bool := decide (f[f.length - 1]? = some (checksum (coveredRange f)))

/-- The payload of a frame, clamped to `PAYLOAD_MAX`; `none` when the frame cannot hold the header (R103 to R105). -/
def payloadOf (f : Bytes) : Option Bytes :=
  if f.length < Config.frameOverhead then none
  else
    some (slice f Config.payloadOffset
      (Config.payloadOffset + min (f.length - Config.payloadOffset - 1) Config.payloadMax - 1))

/-- The value of an ASCII decimal digit (00_scope.md section 5.2). -/
def digitValue (d : Byte) : Option Nat :=
  if 0x30#8 ≤ d ∧ d ≤ 0x39#8 then some (d.toNat - 0x30) else none

/-- The loop of `ANGLE`: `v <- 10·v + digit`, a natural number that is never truncated (R106). -/
def decimalFrom : Nat → Bytes → Option Nat
  | v, [] => some v
  | v, d :: ds =>
    match digitValue d with
    | none => none
    | some x => decimalFrom (10 * v + x) ds

/-- The decimal reading of a payload; an empty payload and a byte that is no digit have none (R107). -/
def decimalValue : Bytes → Option Nat
  | [] => none
  | d :: ds => decimalFrom 0 (d :: ds)

/-- The angle a payload spells, when it is in `[1,180]` (R106, R108). -/
def angleOf (p : Bytes) : Option Byte :=
  match decimalValue p with
  | none => none
  | some v => if v < Config.angleMin ∨ Config.angleMax < v then none else some (BitVec.ofNat 8 v)

end Sys2Proof.Machine
end

