-- ==== Sys2Proof/Channels.lean ====
section
/-! DEFINITION. What passes through the block's channels: the transactions it accepts (spec/10_state.md R18), the
outcomes its operations end with (R17) and the output transactions that carry them (R19); the receiver's resting
states (R12) and its byte classes (spec/30_encoding.md R51); the reasons a transaction does not decode. -/

namespace Sys2Proof

/-- `state`: the three values the receiver rests in (R12). `Complete` and `Overflow` are outcomes, not states. -/
inductive RxState
  | idle
  | accLen
  | accPay
deriving DecidableEq, Repr

/-- The class of an input byte, decided by `state` and the byte alone (R51). -/
inductive ByteClass
  | start
  | spurious
  | length
  | body
deriving DecidableEq, Repr

/-- The outcome of an operation (R17). -/
inductive OpOutcome
  | none
  | complete (f : Bytes)
  | overflow
  | idleTimeout
  | encoded (w : Bytes)
  | oversizePayload
  | checksum (c : Byte)
  | valid
  | checksumMismatch
  | frameTooShort
  | payload (p : Bytes)
  | payloadOutOfRange
  | angle (a : Byte)
deriving DecidableEq, Repr

/-- The channel an outcome leaves by (R19). `caller` carries the outcomes of `RESET`, `VERIFY`, `EXTRACT` and
`ANGLE`, for which R19 names no channel: R17 hands them "to whoever invoked the operation" (log entry 3). -/
inductive OutChannel
  | chkRsp
  | encRsp
  | rxEvt
  | deliver
  | caller
deriving DecidableEq, Repr

/-- One output transaction: an outcome on its channel, or a request `apply_position(a)` to the Actuator (R19). -/
inductive Output
  | outcome (ch : OutChannel) (o : OpOutcome)
  | applyPosition (a : Byte)
deriving DecidableEq, Repr

/-- One input transaction (R18). `rxBlock` and `rxDeliver` invoke the two compositions, which have no channel of their
own. `line` and `wireFrame` present the two things of this block that have a binary encoding: a byte of the serial
stream, decoded to its class (R51), and a wire frame, decoded by its pattern (R49) (log entries 1 and 2).

DESIGN CHOICE (log entry 13): channel `frame_in` of R18 carries both `VERIFY(F)` and `EXTRACT(F)`, and the spec does not
say what selects between them; here the transaction says which one is asked for, `frameInVerify` or `frameInExtract`. -/
inductive Transaction
  | chkReq (s : Bytes)
  | encReq (payload dest : Bytes) (frameId : Byte)
  | rxByte (b : Byte)
  | rxTimeout
  | reset
  | frameInVerify (f : Bytes)
  | frameInExtract (f : Bytes)
  | payloadIn (p : Bytes)
  | rxBlock (s : Bytes)
  | rxDeliver (b : Byte)
  | line (b : Byte)
  | wireFrame (w : Bytes)
deriving DecidableEq, Repr

/-- Receiver-side events a signal-level implementation sees in one cycle (spec/60_exceptions.md R141). -/
structure Coincident where
  reset : Bool
  rxByte : Option Byte
  rxTimeout : Bool
deriving DecidableEq, Repr

/-- Why a transaction, or a wire frame, does not decode. -/
inductive DecodeError
  /-- `ENCODE` with a destination of another length than 8 (R74, U11). -/
  | destinationLength
  /-- `VERIFY` on fewer than 4 bytes (R102, U6). -/
  | verifyTooShort
  /-- A wire frame of fewer than 18 bytes (R56). -/
  | frameShort
  /-- The byte at this offset is not the fixed value of the frame pattern (R49). -/
  | fixedByte (offset : Nat)
  /-- A wire frame longer than `CAPACITY` (R56). -/
  | overCapacity
  /-- The length field is not the frame's size minus 4 (R49). -/
  | lengthField
  /-- The last byte is not the checksum of the covered range (R49). -/
  | checksumField
  /-- No byte is available. -/
  | noByte
deriving DecidableEq, Repr

end Sys2Proof
end

