-- ==== Sys2Proof/Syntax.lean ====
section
/-! DEFINITION. The operations of the block: one constructor per row of spec/opcode_table.json. -/

namespace Sys2Proof

/-- A destination address: exactly 8 bytes, another length is unrepresentable (spec/41_encoder.md R74, D21). -/
abbrev Dest := Vector Byte 8

/-- The ten operations of spec/30_encoding.md R50, the wire frame (R45) and the four receiver byte classes (R51). -/
inductive Instr
  /-- `CHK(s)` (R65). -/
  | chk (s : Bytes)
  /-- `ENCODE(payload, dest, frame_id)` (R70). -/
  | encode (payload : Bytes) (dest : Dest) (frameId : Byte)
  /-- `RX_BYTE(b)` (R80). -/
  | rxByte (b : Byte)
  /-- `RX_BLOCK(s)` (R88). -/
  | rxBlock (s : Bytes)
  /-- `RX_TIMEOUT` (R90). -/
  | rxTimeout
  /-- `RESET` (R160). -/
  | reset
  /-- `VERIFY(F)` (R100). -/
  | verify (f : Bytes)
  /-- `EXTRACT(F)` (R103). -/
  | extract (f : Bytes)
  /-- `ANGLE(P)` (R106). -/
  | angle (p : Bytes)
  /-- `RX_DELIVER(b)` (R110). -/
  | rxDeliver (b : Byte)
  /-- `FRAME.TXREQ`: a wire frame with these free fields (R45, R72). -/
  | frameTxReq (frameId : Byte) (dest : Dest) (payload : Bytes)
  /-- `RXB.START`: the byte `0x7E` in `Idle` (R82). -/
  | rxbStart
  /-- `RXB.SPURIOUS`: any other byte in `Idle` (R82). -/
  | rxbSpurious (b : Byte)
  /-- `RXB.LENGTH`: a byte in `AccLen` (R83). -/
  | rxbLength (b : Byte)
  /-- `RXB.BODY`: a byte in `AccPay` (R84 to R86). -/
  | rxbBody (b : Byte)
deriving DecidableEq, Repr

end Sys2Proof
end

