-- ==== Sys2Proof/WellFormed.lean ====
section
/-! DEFINITION. Which terms of `Instr` are operations of the block. -/

namespace Sys2Proof

/-- Well-formedness. `VERIFY` has no meaning on fewer than 4 bytes (R100, R102); a wire frame's size is at most
`CAPACITY` (R56, the constraint of the table's row FRAME.TXREQ); a spurious byte is not the delimiter (R51). Every
other operand may take every value of its type (R52, R65, R74, R80, R88, R103, R106). -/
def Instr.wf : Instr → Bool
  | .chk _ => true
  | .encode _ _ _ => true
  | .rxByte _ => true
  | .rxBlock _ => true
  | .rxTimeout => true
  | .reset => true
  | .verify f => decide (Config.lenAdjust ≤ f.length)
  | .extract _ => true
  | .angle _ => true
  | .rxDeliver _ => true
  | .frameTxReq _ _ payload => decide (payload.length + Config.frameOverhead ≤ Config.capacity)
  | .rxbStart => true
  | .rxbSpurious b => decide (b ≠ Config.startDelim)
  | .rxbLength _ => true
  | .rxbBody _ => true

end Sys2Proof
end

