-- ==== Sys2Proof/Decode.lean ====
section
/-! DEFINITION. Decoding and encoding. The block has two encodings: the wire frame (spec/30_encoding.md R45 to R49) and
the receiver's byte classes (R51). An operation has no binary opcode: it is selected by the channel its transaction
arrives on (R50), so `decode` maps a transaction to its operation. -/

namespace Sys2Proof

open Machine

/-- The receiver's whole opcode map: the class of a byte, by `state` alone (R51). -/
def classify : RxState → Byte → ByteClass
  | .idle, b => if b = Config.startDelim then .start else .spurious
  | .accLen, _ => .length
  | .accPay, _ => .body

/-- A byte of the stream as its row of the table (R51). Total: every byte has a class in every state. -/
def decodeByte (st : RxState) (b : Byte) : Instr :=
  match classify st b with
  | .start => .rxbStart
  | .spurious => .rxbSpurious b
  | .length => .rxbLength b
  | .body => .rxbBody b

/-- The first byte of a stream, and the rest of the stream (R20: one byte at a time, in arrival order). -/
def decodeStream (st : RxState) : Bytes → Except DecodeError (Instr × Bytes)
  | [] => .error .noByte
  | b :: rest => .ok (decodeByte st b, rest)

/-- The fixed bytes of the frame pattern, by offset: the mask and match rows of R49. -/
def frameFixed : List (Nat × Byte) :=
  [(0, Config.startDelim), (3, Config.frameType), (13, hi8 Config.netAddr), (14, lo8 Config.netAddr),
    (15, Config.radius), (16, Config.options)]

/-- The destination field of a frame: offsets 5 to 12 (R32). -/
def frameDest (w : Bytes) : Dest :=
  #v[w.getD 5 0, w.getD 6 0, w.getD 7 0, w.getD 8 0, w.getD 9 0, w.getD 10 0, w.getD 11 0, w.getD 12 0]

/-- Decode a wire frame: the fixed bytes, the two relations of R49 and the size bound of R56; then its free fields. -/
def decodeFrame (w : Bytes) : Except DecodeError Instr :=
  if w.length < Config.frameOverhead then .error .frameShort
  else
    match frameFixed.find? (fun r => decide (w[r.1]? ≠ some r.2)) with
    | some r => .error (.fixedByte r.1)
    | none =>
      if Config.capacity < w.length then .error .overCapacity
      else if (be16 (w.getD 1 0) (w.getD 2 0)).toNat + Config.lenAdjust ≠ w.length then .error .lengthField
      else if checksumOk w = false then .error .checksumField
      else .ok (.frameTxReq (w.getD 4 0) (frameDest w) (slice w Config.payloadOffset (w.length - 2)))

/-- Decode a transaction: its channel selects the operation (R18, R50), on `frame_in` the transaction itself does (log
entry 13), a byte of the stream is classified by the current `state` (R51), a wire frame is matched with its pattern
(R49). Rejects by name what no operation takes. -/
def decode (st : RxState) : Transaction → Except DecodeError Instr
  | .chkReq s => .ok (.chk s)
  | .encReq payload dest frameId =>
    if h : dest.toArray.size = 8 then .ok (.encode payload ⟨dest.toArray, h⟩ frameId)
    else .error .destinationLength
  | .rxByte b => .ok (.rxByte b)
  | .rxTimeout => .ok .rxTimeout
  | .reset => .ok .reset
  | .frameInVerify f =>
    if Config.lenAdjust ≤ f.length then .ok (.verify f) else .error .verifyTooShort
  | .frameInExtract f => .ok (.extract f)
  | .payloadIn p => .ok (.angle p)
  | .rxBlock s => .ok (.rxBlock s)
  | .rxDeliver b => .ok (.rxDeliver b)
  | .line b => .ok (decodeByte st b)
  | .wireFrame w => decodeFrame w

/-- The words of a wire frame, field by field in wire order (the table of R45). -/
def encodeFrame (frameId : Byte) (dest : Dest) (payload : Bytes) : Bytes :=
  let lengthField := BitVec.ofNat 16 (Config.lenOverhead + payload.length)
  let covered :=
    Config.frameType :: frameId :: (dest.toList ++
      (hi8 Config.netAddr :: lo8 Config.netAddr :: Config.radius :: Config.options :: payload))
  Config.startDelim :: hi8 lengthField :: lo8 lengthField :: (covered ++ [checksum covered])

/-- The transaction that carries an operation to the block (R18); of a byte class, the byte; of a wire frame, its
words. -/
def encode : Instr → Transaction
  | .chk s => .chkReq s
  | .encode payload dest frameId => .encReq payload dest.toList frameId
  | .rxByte b => .rxByte b
  | .rxBlock s => .rxBlock s
  | .rxTimeout => .rxTimeout
  | .reset => .reset
  | .verify f => .frameInVerify f
  | .extract f => .frameInExtract f
  | .angle p => .payloadIn p
  | .rxDeliver b => .rxDeliver b
  | .frameTxReq frameId dest payload => .wireFrame (encodeFrame frameId dest payload)
  | .rxbStart => .line Config.startDelim
  | .rxbSpurious b => .line b
  | .rxbLength b => .line b
  | .rxbBody b => .line b

/-- The states in which the receiver decodes this operation: a byte class only in its own state (R51), everything else
in every state (R18, R80). -/
def Instr.availableIn (st : RxState) : Instr → Bool
  | .chk _ => true
  | .encode _ _ _ => true
  | .rxByte _ => true
  | .rxBlock _ => true
  | .rxTimeout => true
  | .reset => true
  | .verify _ => true
  | .extract _ => true
  | .angle _ => true
  | .rxDeliver _ => true
  | .frameTxReq _ _ _ => true
  | .rxbStart => decide (st = .idle)
  | .rxbSpurious _ => decide (st = .idle)
  | .rxbLength _ => decide (st = .accLen)
  | .rxbBody _ => decide (st = .accPay)

/-- The low `n` bytes of a number, the least significant first. -/
def wordBytes : Nat → Nat → Bytes
  | 0, _ => []
  | n + 1, w => BitVec.ofNat 8 w :: wordBytes n (w / 256)

/-- A frame whose operand bytes were left out, filled with zeros to the size its length field announces. -/
def padFrame (w : Bytes) : Bytes :=
  w ++ List.replicate
    (min ((be16 (w.getD 1 0) (w.getD 2 0)).toNat + Config.lenAdjust) Config.capacity - w.length) 0#8

/-- The transaction of a word of the opcode table: one byte is a byte of the stream, more are a wire frame. -/
def tableTransaction (nbits w : Nat) : Transaction :=
  match wordBytes ((nbits + 7) / 8) w with
  | [b] => .line b
  | bs => .wireFrame (padFrame bs)

/-- The operation the decoder reads from a word of the opcode table, by a receiver in `Idle` (log entry 4). -/
def decodeTableWord (nbits w : Nat) : Option Instr := (decode .idle (tableTransaction nbits w)).toOption

end Sys2Proof
end

