-- ==== Sys2Proof/Machine/State.lean ====
section
/-! DEFINITION. The state of the machine: the ReceiveAccumulator (spec/10_state.md R10 to R15), the only state the block
has (R16), beside the model's own record of the transactions that wait for it and of those that left it. -/

namespace Sys2Proof.Machine

/-- Contents of `buf`: (address, byte) pairs, addresses strictly rising. An address that is not listed was never
written and holds no value (R11, R22; log entry 5). -/
abbrev Memory := List Host.Cell

/-- Why the machine stops. No run from reset meets one: `RX_BYTE` is total in every reachable state (R80). -/
inductive Fault
  /-- Raised by the append when `count` is not below `CAPACITY`, an address that does not exist (R30, R38). Safe. -/
  | bufWriteOutside
  /-- Raised by a read of `buf` outside `buf[0 .. count-1]`, which is not defined (R33), or of a byte that nothing has
  written. Safe. -/
  | bufReadUndefined
  /-- Raised by `RX_BYTE` in `AccPay` when `expected_total` is `none`, a pair of values that never rests (R14, R15).
  Safe. -/
  | expectedTotalUnknown
deriving DecidableEq, Repr

/-- Why an operation has no meaning. -/
inductive Refusal
  /-- Raised by `exec` for a row of the opcode table without a meaning. Safe. -/
  | notModelled (mnemonic : String)
  /-- Raised by `step` for a transaction that is no operation of the block (R74, R102, R49). Safe. -/
  | undecodable (e : DecodeError)
  /-- Raised by `VERIFY` on fewer than 4 bytes: "the operation has no meaning" (R102, U6). Safe. -/
  | verifyDomain
  /-- Raised by a byte class in a state in which the receiver does not decode it (R51). Never raised by `step`. Safe. -/
  | classNotDecoded (c : ByteClass)
deriving DecidableEq, Repr

/-- The machine's state. -/
structure State where
  /-- The accumulator's store, `CAPACITY` bytes at addresses `0 .. CAPACITY-1` (R11, R30). -/
  buf : Memory
  /-- The number of bytes accumulated, 7 bits (R13). -/
  count : BitVec 7
  /-- `state`, the current parse state (R12). -/
  rxState : RxState
  /-- `expected_total`: unknown, or a 17-bit number (R15). -/
  expectedTotal : Option (BitVec 17)
  /-- MODEL'S OWN: the transactions the outside will present, in order (R18, R20, R39; log entry 1). -/
  pending : List Transaction
  /-- MODEL'S OWN: the output transactions that have left the block, in order (R19; log entry 3). No operation reads
  it. -/
  outbox : List Output
deriving DecidableEq, Repr

/-- Right after reset (R22): `Idle`, empty, `expected_total` unknown; `buf` holds nothing a rule may read. -/
def State.reset : State where
  buf := []
  count := 0
  rxState := .idle
  expectedTotal := none
  pending := []
  outbox := []

end Sys2Proof.Machine
end

