-- ==== Sys2Proof/Machine/Flags.lean ====
section
/-! DEFINITION. The block has no flags and no condition codes (spec/10_state.md R16). What stands here in their place: the
two tests of `RX_BYTE` in `AccPay` (spec/42_receiver.md R84, R85), the error kinds (spec/60_exceptions.md R135) and the
codes for states and outcomes (R12, R136). -/

namespace Sys2Proof.Machine

/-- The completion test, `count ≥ expected_total`, made after the append (R84). -/
def frameComplete (count : BitVec 7) (total : BitVec 17) : Bool := decide (total.toNat ≤ count.toNat)

/-- The overflow test, `count = CAPACITY`, made after the completion test (R85). -/
def bufferFull (count : BitVec 7) : Bool := decide (count.toNat = Config.capacity)

/-- The error kinds an outcome can report: the source's four and the spec's two (R135). `SpuriousByte` is not an error
and is not reported (R137). -/
inductive ErrorKind
  | bufferOverflow
  | oversizePayload
  | checksumMismatch
  | payloadOutOfRange
  | frameTooShort
  | idleTimeout
deriving DecidableEq, Repr

/-- The error an outcome is, if it is one (R135, R17). -/
def errorOf : OpOutcome → Option ErrorKind
  | .none => none
  | .complete _ => none
  | .overflow => some .bufferOverflow
  | .idleTimeout => some .idleTimeout
  | .encoded _ => none
  | .oversizePayload => some .oversizePayload
  | .checksum _ => none
  | .valid => none
  | .checksumMismatch => some .checksumMismatch
  | .frameTooShort => some .frameTooShort
  | .payload _ => none
  | .payloadOutOfRange => some .payloadOutOfRange
  | .angle _ => none

/-- The status code of an outcome for an implementation that puts it on wires (R136). -/
def statusCode (o : OpOutcome) : Nat :=
  match errorOf o with
  | none => 0
  | some .bufferOverflow => 1
  | some .oversizePayload => 2
  | some .checksumMismatch => 3
  | some .payloadOutOfRange => 4
  | some .frameTooShort => 5
  | some .idleTimeout => 6

/-- The suggested 2-bit code of a resting state (R12). -/
def stateCode : RxState → BitVec 2
  | .idle => 0b00#2
  | .accLen => 0b01#2
  | .accPay => 0b10#2

/-- The state a 2-bit code stands for; the code `11` is unused and is taken as `Idle` (spec/93_implementation_defined.md
U12). -/
def stateOfCode (c : BitVec 2) : RxState :=
  if c = 0b01#2 then .accLen else if c = 0b10#2 then .accPay else .idle

end Sys2Proof.Machine
end

