-- ==== Sys2Proof/Machine/Ops.lean ====
section
/-! DEFINITION. The shared operations over the accumulator and the channels. An error is the outcome of the operation
that met it: there is no trap entry and no return from one (spec/60_exceptions.md R143, R144), so what other machines do
in taking an exception is here `State.emit`. -/

namespace Sys2Proof.Machine

/-- A result of the machine: a value, a fault or a refusal. -/
abbrev Result (α : Type) := Host.Outcome α Fault Refusal

/-- Go on with a result's value; a fault or a refusal stays. -/
def andThen {α β : Type} (r : Result α) (f : α → Result β) : Result β :=
  match r with
  | .next a => f a
  | .fault e => .fault e
  | .refused e => .refused e

/-! ### The memory `buf` -/

/-- The byte at an address, if it was written. -/
def Memory.read : Memory → Nat → Option Byte
  | [], _ => none
  | (k, v) :: m, a => if k = a then some v else Memory.read m a

/-- Store a byte, keeping the addresses rising. -/
def Memory.write : Memory → Nat → Byte → Memory
  | [], a, b => [(a, b)]
  | (k, v) :: m, a, b =>
    if a < k then (a, b) :: (k, v) :: m
    else if a = k then (a, b) :: m
    else (k, v) :: Memory.write m a b

/-- The bytes at `a`, `a + 1`, ..., if all were written. -/
def Memory.readRange (m : Memory) (a : Nat) : Nat → Option Bytes
  | 0 => some []
  | n + 1 =>
    match m.read a, Memory.readRange m (a + 1) n with
    | some b, some bs => some (b :: bs)
    | _, _ => none

/-- The canonical form: addresses strictly rising. -/
def Memory.wf : Memory → Bool
  | [] => true
  | [_] => true
  | c :: d :: m => decide (c.1 < d.1) && Memory.wf (d :: m)

/-- Every listed address exists: it is below `CAPACITY` (R30). -/
def Memory.inSpace (m : Memory) : Bool := m.all fun c => decide (c.1 < Config.capacity)

namespace State

/-- The bytes `buf[addr .. addr+n-1]`; defined only inside `buf[0 .. count-1]` (R33). -/
def readBytes (s : State) (addr n : Nat) : Option Bytes :=
  if addr + n ≤ s.count.toNat then s.buf.readRange addr n else none

/-- `MemRead(addr, n)`: the bytes as one big-endian number (00_scope.md section 5.3). -/
def memRead (s : State) (addr n : Nat) : Option Nat := (s.readBytes addr n).map bigEndian

/-- `MemWrite(addr, 1, b)`; an address at or above `CAPACITY` does not exist (R30, R38). -/
def memWrite (s : State) (addr : Nat) (b : Byte) : Result State :=
  if addr < Config.capacity then .next { s with buf := s.buf.write addr b } else .fault .bufWriteOutside

/-- Where the next byte is stored: `buf[count]` (R14). -/
def appendAddr (s : State) : Nat := s.count.toNat

/-- `append(b)`: `buf[count] <- b; count <- count + 1` (R81). -/
def append (s : State) (b : Byte) : Result State :=
  andThen (s.memWrite s.appendAddr b) fun t => .next { t with count := t.count + 1 }

/-- "Clear the accumulator": `count <- 0; expected_total <- none`; `buf` is left alone (R23, D16). -/
def cleared (s : State) : State := { s with count := 0, expectedTotal := none }

/-- Reset to empty: cleared, and back in `Idle` (R23). -/
def toIdle (s : State) : State := { s.cleared with rxState := .idle }

/-- `expected_total` as the length bytes announce it: `BE16(buf[1], buf[2]) + 4` in 17 bits (R47, R83). -/
def announcedTotal (s : State) : Option (BitVec 17) :=
  (s.memRead 1 2).map fun v => BitVec.ofNat 17 (v + Config.lenAdjust)

/-- End the operation with an outcome on a channel (R17, R19). -/
def emit (s : State) (ch : OutChannel) (o : OpOutcome) : State :=
  { s with outbox := s.outbox ++ [.outcome ch o] }

/-- `request apply_position(a)` (R110, R112). -/
def requestPosition (s : State) (a : Byte) : State := { s with outbox := s.outbox ++ [.applyPosition a] }

/-- Present further transactions to the block, after those that wait. -/
def present (s : State) (ts : List Transaction) : State := { s with pending := s.pending ++ ts }

end State

/-! ### The receiver's step, one arm per byte class -/

/-- A delimiter in `Idle`: clear, append, to `AccLen` (R80, R82). -/
def armStart (s : State) : Result (State × OpOutcome) :=
  andThen (s.cleared.append Config.startDelim) fun t => .next ({ t with rxState := .accLen }, .none)

/-- A spurious byte in `Idle` (R80, R82). -/
def armSpurious (s : State) : Result (State × OpOutcome) := .next (s.cleared, .none)

/-- A length byte in `AccLen`; the third byte of the frame makes `expected_total` known (R83). -/
def armLength (b : Byte) (s : State) : Result (State × OpOutcome) :=
  andThen (s.append b) fun t =>
    if t.count.toNat = Config.lenFieldEnd then
      match t.announcedTotal with
      | some e => .next ({ t with expectedTotal := some e, rxState := .accPay }, .none)
      | none => .fault .bufReadUndefined
    else .next (t, .none)

/-- A body byte in `AccPay`: append, then completion, then overflow (R84, R85, R86). -/
def armBody (b : Byte) (s : State) : Result (State × OpOutcome) :=
  andThen (s.append b) fun t =>
    match t.expectedTotal with
    | none => .fault .expectedTotalUnknown
    | some e =>
      if frameComplete t.count e then
        match t.readBytes 0 t.count.toNat with
        | some f => .next (t.toIdle, .complete f)
        | none => .fault .bufReadUndefined
      else if bufferFull t.count then .next (t.toIdle, .overflow)
      else .next (t, .none)

/-- One step of the receiver: the arm of the byte's class (R80). -/
def rxStep (b : Byte) (s : State) : Result (State × OpOutcome) :=
  match classify s.rxState b with
  | .start => armStart s
  | .spurious => armSpurious s
  | .length => armLength b s
  | .body => armBody b s

/-- End a receiver step by handing its outcome out on `rx_evt` (R19). -/
def reportRx (r : Result (State × OpOutcome)) : Result State := andThen r fun p => .next (p.1.emit .rxEvt p.2)

/-- A byte class runs its arm when the receiver so classifies the byte, and is refused in other states (R51). -/
def whenClass (c : ByteClass) (b : Byte) (s : State) (r : Result (State × OpOutcome)) : Result State :=
  if classify s.rxState b = c then reportRx r else .refused (.classNotDecoded c)

/-- Feed bytes one after the other, in order (R20, R88). -/
def feed (take : Byte → State → Result State) : Bytes → State → Result State
  | [], s => .next s
  | b :: bs, s => andThen (take b s) (feed take bs)

/-! ### The checks on a Complete frame -/

/-- The three checks in their fixed order: checksum, header, decimal reading and range (R110, R111). -/
def frameVerdict (f : Bytes) : OpOutcome :=
  if checksumOk f then
    match payloadOf f with
    | none => .frameTooShort
    | some p =>
      match angleOf p with
      | none => .payloadOutOfRange
      | some a => .angle a
  else .checksumMismatch

/-- Hand a verdict out on `deliver`; an angle is first requested of the Actuator (R110, R112). -/
def State.deliverVerdict (s : State) : OpOutcome → State
  | .angle a => (s.requestPosition a).emit .deliver (.angle a)
  | o => s.emit .deliver o

/-- What the whole receive path does with the outcome of the receiver's step (R110). `VERIFY` comes first and has no
meaning on fewer than 4 bytes (R102). -/
def judge (s : State) : OpOutcome → Result State
  | .complete f =>
    if f.length < Config.lenAdjust then .refused .verifyDomain else .next (s.deliverVerdict (frameVerdict f))
  | o => .next (s.emit .deliver o)

/-- The whole receive path for one byte (R110). -/
def deliverByte (b : Byte) (s : State) : Result State := andThen (rxStep b s) fun p => judge p.1 p.2

/-! ### Events in one cycle -/

/-- The order of receiver-side events that coincide: `RESET` first and alone; else a byte, which withdraws the timeout
(R141, D18). -/
def arbitrate (c : Coincident) : List Transaction :=
  if c.reset then [.reset]
  else
    match c.rxByte with
    | some b => [.rxByte b]
    | none => if c.rxTimeout then [.rxTimeout] else []

end Sys2Proof.Machine
end

