-- ==== Sys2Proof/Machine/Check.lean ====
section
/-! DEFINITION. What is done to a Complete frame: `VERIFY`, `EXTRACT`, `ANGLE` (spec/43_frame_check_extract.md). -/

namespace Sys2Proof.Machine

/-- `VERIFY(F)` (R100). No meaning on fewer than 4 bytes (R102). -/
def execVerify (f : Bytes) (s : State) : Host.Outcome State Fault Refusal :=
  if f.length < Config.lenAdjust then .refused .verifyDomain
  else .next (s.emit .caller (if checksumOk f then .valid else .checksumMismatch))

/-- `EXTRACT(F)` (R103 to R105). Total. -/
def execExtract (f : Bytes) (s : State) : Host.Outcome State Fault Refusal :=
  match payloadOf f with
  | none => .next (s.emit .caller .frameTooShort)
  | some p => .next (s.emit .caller (.payload p))

/-- `ANGLE(P)` (R106 to R108). Total. -/
def execAngle (p : Bytes) (s : State) : Host.Outcome State Fault Refusal :=
  match angleOf p with
  | none => .next (s.emit .caller .payloadOutOfRange)
  | some a => .next (s.emit .caller (.angle a))

end Sys2Proof.Machine
end

