-- ==== Sys2Proof/Machine/Checksum.lean ====
section
/-! DEFINITION. ChecksumEngine: `CHK` (spec/40_checksum.md). -/

namespace Sys2Proof.Machine

/-- `CHK(s)` (R65). Total; reads and writes no state (R44). -/
def execChk (s : Bytes) (st : State) : Host.Outcome State Fault Refusal :=
  .next (st.emit .chkRsp (.checksum (checksum s)))

end Sys2Proof.Machine
end

