-- ==== Sys2Proof/Machine/Deliver.lean ====
section
/-! DEFINITION. The whole receive path: `RX_DELIVER` (spec/43_frame_check_extract.md R110) and a wire frame that arrives
on it, `FRAME.TXREQ` (spec/30_encoding.md R45; log entry 2). -/

namespace Sys2Proof.Machine

/-- `RX_DELIVER(b)` (R110). -/
def execRxDeliver (b : Byte) (s : State) : Host.Outcome State Fault Refusal := deliverByte b s

/-- `FRAME.TXREQ`: the words of the frame arrive, in wire order, on the whole receive path (R45, R72, R110). -/
def execFrameTxReq (frameId : Byte) (dest : Dest) (payload : Bytes) (s : State) :
    Host.Outcome State Fault Refusal :=
  feed deliverByte (encodeFrame frameId dest payload) s

end Sys2Proof.Machine
end

