-- ==== Sys2Proof/Machine/Encoder.lean ====
section
/-! DEFINITION. FrameEncoder: `ENCODE` (spec/41_encoder.md). -/

namespace Sys2Proof.Machine

/-- `body` of R70: frame type, frame id, destination, network address, radius, options, payload. -/
def encodeBody (payload : Bytes) (dest : Dest) (frameId : Byte) : Bytes :=
  [Config.frameType, frameId] ++ dest.toList ++ [0xFF#8, 0xFE#8] ++ [Config.radius, Config.options] ++ payload

/-- `W` of R70: delimiter, length, `body`, checksum of `body`. -/
def encodeWords (payload : Bytes) (dest : Dest) (frameId : Byte) : Bytes :=
  let len := BitVec.ofNat 16 (Config.lenOverhead + payload.length)
  let body := encodeBody payload dest frameId
  [Config.startDelim, hi8 len, lo8 len] ++ body ++ [checksum body]

/-- The outcome of `ENCODE`: the size test first, then all or nothing (R70, R71, R76). -/
def encodeOutcome (payload : Bytes) (dest : Dest) (frameId : Byte) : OpOutcome :=
  if Config.capacity < payload.length + Config.frameOverhead then .oversizePayload
  else .encoded (encodeWords payload dest frameId)

/-- `ENCODE(payload, dest, frame_id)` (R70). Reads and writes no state (R44, R77). -/
def execEncode (payload : Bytes) (dest : Dest) (frameId : Byte) (s : State) : Host.Outcome State Fault Refusal :=
  .next (s.emit .encRsp (encodeOutcome payload dest frameId))

end Sys2Proof.Machine
end

