-- ==== Sys2Proof/Machine/Events.lean ====
section
/-! DEFINITION. The two events that are not data: `RX_TIMEOUT` (spec/42_receiver.md R90) and `RESET`
(spec/70_reset_and_hazards.md R160). -/

namespace Sys2Proof.Machine

/-- `RX_TIMEOUT`: drops a partial frame; nothing in `Idle` (R90). -/
def execRxTimeout (s : State) : Host.Outcome State Fault Refusal :=
  if s.rxState ≠ .idle then .next (s.toIdle.emit .rxEvt .idleTimeout) else .next (s.emit .rxEvt .none)

/-- `RESET`: the accumulator to its initial state; `buf` is not cleared (R160). -/
def execReset (s : State) : Host.Outcome State Fault Refusal := .next (s.toIdle.emit .caller .none)

end Sys2Proof.Machine
end

