-- ==== Sys2Proof/Machine/Receiver.lean ====
section
/-! DEFINITION. FrameReceiver: `RX_BYTE`, `RX_BLOCK` (spec/42_receiver.md) and the four byte classes (spec/30_encoding.md
R51). -/

namespace Sys2Proof.Machine

/-- `RX_BYTE(b)` (R80). -/
def execRxByte (b : Byte) (s : State) : Host.Outcome State Fault Refusal := reportRx (rxStep b s)

/-- `RX_BLOCK(s)`: `RX_BYTE` of every byte, in order, one outcome each (R88). -/
def execRxBlock (bytes : Bytes) (s : State) : Host.Outcome State Fault Refusal :=
  feed (fun b t => reportRx (rxStep b t)) bytes s

/-- `RXB.START`: the delimiter in `Idle` (R82). -/
def execRxbStart (s : State) : Host.Outcome State Fault Refusal := whenClass .start Config.startDelim s (armStart s)

/-- `RXB.SPURIOUS`: another byte in `Idle`, discarded (R82). -/
def execRxbSpurious (b : Byte) (s : State) : Host.Outcome State Fault Refusal := whenClass .spurious b s (armSpurious s)

/-- `RXB.LENGTH`: a byte in `AccLen` (R83). -/
def execRxbLength (b : Byte) (s : State) : Host.Outcome State Fault Refusal := whenClass .length b s (armLength b s)

/-- `RXB.BODY`: a byte in `AccPay` (R84, R85, R86). -/
def execRxbBody (b : Byte) (s : State) : Host.Outcome State Fault Refusal := whenClass .body b s (armBody b s)

end Sys2Proof.Machine
end

