-- ==== Sys2Proof/Machine/Dispatch.lean ====
section
/-! DEFINITION. One arm per operation. -/

namespace Sys2Proof.Machine

def exec (i : Instr) (s : State) : Host.Outcome State Fault Refusal :=
  match i with
  | .chk bytes => Sys2Proof.Machine.execChk bytes s
  | .encode payload dest frameId => Sys2Proof.Machine.execEncode payload dest frameId s
  | .rxByte b => Sys2Proof.Machine.execRxByte b s
  | .rxBlock bytes => Sys2Proof.Machine.execRxBlock bytes s
  | .rxTimeout => Sys2Proof.Machine.execRxTimeout s
  | .reset => Sys2Proof.Machine.execReset s
  | .verify f => Sys2Proof.Machine.execVerify f s
  | .extract f => Sys2Proof.Machine.execExtract f s
  | .angle p => Sys2Proof.Machine.execAngle p s
  | .rxDeliver b => Sys2Proof.Machine.execRxDeliver b s
  | .frameTxReq frameId dest payload => Sys2Proof.Machine.execFrameTxReq frameId dest payload s
  | .rxbStart => Sys2Proof.Machine.execRxbStart s
  | .rxbSpurious b => Sys2Proof.Machine.execRxbSpurious b s
  | .rxbLength b => Sys2Proof.Machine.execRxbLength b s
  | .rxbBody b => Sys2Proof.Machine.execRxbBody b s

end Sys2Proof.Machine
end

