-- ==== Sys2Proof/Machine/Step.lean ====
section
/-! DEFINITION. One step: the next transaction is taken, decoded and performed, whole, before the one after it
(spec/20_memory.md R39, R40). -/

namespace Sys2Proof.Machine

/-- Take the oldest transaction that waits, decode it in the receiver's present `state` and perform its operation. With
none waiting the block performs no operation and keeps its state (R93, R150). -/
def step (s : State) : Host.Outcome State Fault Refusal :=
  match s.pending with
  | [] => .next s
  | t :: rest =>
    match decode s.rxState t with
    | .ok i => exec i { s with pending := rest }
    | .error e => .refused (.undecodable e)

/-- `s` with the transaction of a table word waiting first. A one-byte word is a byte of the stream met in `Idle`
(`decodeTableWord`), so the accumulator is put there (log entry 4). -/
def State.withFetchWord (s : State) (nbits w : Nat) : State :=
  match tableTransaction nbits w with
  | .line b => { s.toIdle with pending := .line b :: s.pending }
  | t => { s with pending := t :: s.pending }

end Sys2Proof.Machine
end

