-- ==== Sys2Proof/Safety.lean ====
section
/-! DEFINITION. What the claims about this machine are stated in: a fresh receiver, the invariant of the accumulator at
rest, states that nothing outside can tell apart, where a byte is stored, which outcomes an operation may end with. -/

namespace Sys2Proof.Machine

/-- A fresh receiver: an accumulator in the reset state (spec/10_state.md R22; spec/44_properties.md). What `buf` holds
is free. -/
abbrev State.Fresh (s : State) : Prop := s.rxState = .idle ∧ s.count = 0 ∧ s.expectedTotal = none

/-- The operation ends with this outcome, handed to whoever invoked it, and changes nothing (R17). The channel is left
open: for `VERIFY`, `EXTRACT`, `ANGLE` and `RESET` the spec names none. -/
abbrev EndsWith (r : Result State) (s : State) (o : OpOutcome) : Prop := ∃ ch, r = .next (s.emit ch o)

/-- Every architectural element of `buf` was written (R11). -/
abbrev State.Written (s : State) : Prop := ∀ a < s.count.toNat, (s.buf.read a).isSome = true

/-- The accumulator at rest: `buf` in canonical form and within its address space, its architectural part written, and
the relations of the table of R14. -/
abbrev State.Inv (s : State) : Prop :=
  s.buf.wf = true ∧ s.buf.inSpace = true ∧ s.Written ∧
  (s.rxState = .idle → s.count = 0 ∧ s.expectedTotal = none) ∧
  (s.rxState = .accLen →
    1 ≤ s.count.toNat ∧ s.count.toNat ≤ 2 ∧ s.buf.read 0 = some Config.startDelim ∧ s.expectedTotal = none) ∧
  (s.rxState = .accPay →
    3 ≤ s.count.toNat ∧ s.count.toNat + 1 ≤ Config.capacity ∧ s.buf.read 0 = some Config.startDelim ∧
    s.expectedTotal = s.announcedTotal ∧ (s.expectedTotal.any fun e => decide (s.count.toNat + 1 ≤ e.toNat)) = true)

/-- The same accumulator: `state`, `count`, `expected_total` and `buf[0..count-1]` agree (R24). -/
abbrev State.SameAccumulator (s t : State) : Prop :=
  s.rxState = t.rxState ∧ s.count = t.count ∧ s.expectedTotal = t.expectedTotal ∧
  ∀ a < s.count.toNat, s.buf.read a = t.buf.read a

/-- Every register of the accumulator and every byte of `buf` unchanged. -/
abbrev State.AccumulatorKept (s t : State) : Prop :=
  t.rxState = s.rxState ∧ t.count = s.count ∧ t.expectedTotal = s.expectedTotal ∧
  ∀ a, t.buf.read a = s.buf.read a

/-- Where the receiver's step stores its byte: a delimiter in `Idle` after the clear, a length or body byte at the count,
a spurious byte nowhere (R80, R81). -/
def rxStoreAddr (b : Byte) (s : State) : Option Nat :=
  match classify s.rxState b with
  | .start => some s.cleared.appendAddr
  | .spurious => none
  | .length => some s.appendAddr
  | .body => some s.appendAddr

/-- The angles requested of the Actuator in a list of output transactions, in order. -/
def requested : List Output → List Byte
  | [] => []
  | .applyPosition a :: os => a :: requested os
  | .outcome _ _ :: os => requested os

/-- The angles delivered as outcomes in a list of output transactions, in order. -/
def delivered : List Output → List Byte
  | [] => []
  | .outcome .deliver (.angle a) :: os => a :: delivered os
  | _ :: os => delivered os

/-- The operations of the encoder side: those that neither read nor write the accumulator (R44). -/
def encoderSide : Instr → Bool
  | .chk _ => true
  | .encode _ _ _ => true
  | .verify _ => true
  | .extract _ => true
  | .angle _ => true
  | .rxByte _ => false
  | .rxBlock _ => false
  | .rxTimeout => false
  | .reset => false
  | .rxDeliver _ => false
  | .frameTxReq _ _ _ => false
  | .rxbStart => false
  | .rxbSpurious _ => false
  | .rxbLength _ => false
  | .rxbBody _ => false

/-- The operations that end with exactly one outcome: all but the two that stand for one operation per byte (R17, R54;
log entry 2 for the wire frame). -/
def singleOutcome : Instr → Bool
  | .rxBlock _ => false
  | .frameTxReq _ _ _ => false
  | .chk _ => true
  | .encode _ _ _ => true
  | .verify _ => true
  | .extract _ => true
  | .angle _ => true
  | .rxByte _ => true
  | .rxTimeout => true
  | .reset => true
  | .rxDeliver _ => true
  | .rxbStart => true
  | .rxbSpurious _ => true
  | .rxbLength _ => true
  | .rxbBody _ => true

/-- The column "outcome" of the table of operations (R50), with R17; a byte class has the outcomes R51's rules give it. -/
def mayEndWith : Instr → OpOutcome → Prop
  | .chk _, o => ∃ c, o = .checksum c
  | .encode _ _ _, o => (∃ w, o = .encoded w) ∨ o = .oversizePayload
  | .rxByte _, o => o = .none ∨ (∃ f, o = .complete f) ∨ o = .overflow
  | .rxBlock _, o => o = .none ∨ (∃ f, o = .complete f) ∨ o = .overflow
  | .rxTimeout, o => o = .none ∨ o = .idleTimeout
  | .reset, o => o = .none
  | .verify _, o => o = .valid ∨ o = .checksumMismatch
  | .extract _, o => (∃ p, o = .payload p) ∨ o = .frameTooShort
  | .angle _, o => (∃ a, o = .angle a) ∨ o = .payloadOutOfRange
  | .rxDeliver _, o =>
    o = .none ∨ o = .overflow ∨ o = .checksumMismatch ∨ o = .frameTooShort ∨ o = .payloadOutOfRange ∨
      ∃ a, o = .angle a
  | .frameTxReq _ _ _, o =>
    o = .none ∨ o = .overflow ∨ o = .checksumMismatch ∨ o = .frameTooShort ∨ o = .payloadOutOfRange ∨
      ∃ a, o = .angle a
  | .rxbStart, o => o = .none
  | .rxbSpurious _, o => o = .none
  | .rxbLength _, o => o = .none
  | .rxbBody _, o => o = .none ∨ (∃ f, o = .complete f) ∨ o = .overflow

end Sys2Proof.Machine
end

