-- ==== Sys2Proof/Certificates/Slice0/Obligations.lean ====
section
/-! DEFINITION. The statements about the machine. `s.emit ch o` is `s` with one output transaction more, so a conclusion
`exec i s = .next (s.emit ch o)`, and `EndsWith (exec i s) s o` with it, says the outcome and that everything else is
unchanged. That the outputs stand in a list of the state is how the model hands an outcome out (log entry 3). Where a rule
is one the spec marks "[derived: ...]", the docstring calls it "an inference of the spec's own". -/

open Sys2Proof Sys2Proof.Machine

/-! ### Decoding and stepping -/

/-- Words written out from the tables of R49 and R51 decode to the rows they stand for. The frame is the listing of
spec/95_test_vectors.md section 1.1. The first two clauses read a table word, which gives no state, by a receiver in
`Idle`: the model's choice (log entry 4). -/
def Obligations.WrittenOutWordsDecode : Prop :=
  decodeTableWord 8 0b01111110 = some .rxbStart ∧
  decodeTableWord 8 0b01111101 = some (.rxbSpurious 0x7D#8) ∧
  decode .accLen (.line 0b01111110#8) = .ok (.rxbLength 0x7E#8) ∧
  decode .accPay (.line 0b01111110#8) = .ok (.rxbBody 0x7E#8) ∧
  decode .idle (.wireFrame
    [0x7E, 0x00, 0x10, 0x10, 0x01, 0x00, 0x13, 0xA2, 0x00, 0x42, 0x2D, 0xB5, 0xC4, 0xFF, 0xFE, 0x00, 0x00, 0x39,
      0x30, 0xEB]) =
    .ok (.frameTxReq 0x01 #v[0x00, 0x13, 0xA2, 0x00, 0x42, 0x2D, 0xB5, 0xC4] [0x39, 0x30])

/-- The receiver's opcode map (R51): one byte value is special in one state. -/
def Obligations.ByteClassesDecodeByState : Prop :=
  ∀ b : Byte,
    decode .idle (.line 0x7E#8) = .ok .rxbStart ∧
    (b ≠ 0x7E#8 → decode .idle (.line b) = .ok (.rxbSpurious b)) ∧
    decode .accLen (.line b) = .ok (.rxbLength b) ∧
    decode .accPay (.line b) = .ok (.rxbBody b)

/-- A step takes the oldest transaction and runs the operation it decodes to; it refuses one that does not decode, by
name; with none waiting it keeps the state (R18, R20, R39, R93). That the input waits in a list is the model's choice
(log entry 1). -/
def Obligations.StepRunsDecodedOperation : Prop :=
  ∀ s : State,
    (s.pending = [] → step s = .next s) ∧
    (∀ t rest i, s.pending = t :: rest → decode s.rxState t = .ok i → step s = exec i { s with pending := rest }) ∧
    (∀ t rest e, s.pending = t :: rest → decode s.rxState t = .error e → step s = .refused (.undecodable e))

/-- Decoding an encoded well-formed operation, in a state in which the receiver decodes it, gives it back. The forms of
a transaction are the model's choice where the channel does not settle them (log entries 1 and 13). -/
def Obligations.DecodeOfEncode : Prop :=
  ∀ (st : RxState) (i : Instr), i.wf = true → i.availableIn st = true → decode st (encode i) = .ok i

/-- Each transaction has one meaning: what it decodes to is well formed, is available in that state, and encodes back to
the transaction, bit by bit. The forms of a transaction are the model's choice where the channel does not settle them
(log entries 1 and 13). -/
def Obligations.EncodeOfDecode : Prop :=
  ∀ (st : RxState) (t : Transaction) (i : Instr), decode st t = .ok i →
    i.wf = true ∧ i.availableIn st = true ∧ encode i = t

/-- The word of a table row, placed as the next transaction, runs the operation it decodes to; waiting transactions,
outputs and `buf` are those of the state it was placed in (the model's choice: log entry 4). -/
def Obligations.StepRunsTableWord : Prop :=
  ∀ (s : State) (nbits w : Nat) (i : Instr), decodeTableWord nbits w = some i →
    ∃ u : State, step (s.withFetchWord nbits w) = exec i u ∧
      u.pending = s.pending ∧ u.outbox = s.outbox ∧ u.buf = s.buf

/-! ### Reset and the invariant -/

/-- Right after reset (R22): `Idle`, `count = 0`, `expected_total` none. -/
def Obligations.ResetValues : Prop :=
  State.reset.rxState = .idle ∧ State.reset.count = 0 ∧ State.reset.expectedTotal = none

/-- Right after reset `buf` lists nothing, nothing waits and nothing has left: the model's choice (log entries 1, 3
and 5). -/
def Obligations.ResetListsNothing : Prop :=
  (∀ a, State.reset.buf.read a = none) ∧ State.reset.pending = [] ∧ State.reset.outbox = []

/-- The invariant holds right after reset. -/
def Obligations.ResetMeetsAccumulatorRelations : Prop := State.reset.Inv

/-- The relations of R14 (an inference of the spec's own), and the canonical form of `buf` (log entry 5), hold at rest
after any step that answers next, whatever transactions wait. -/
def Obligations.StepKeepsAccumulatorRelations : Prop :=
  ∀ s t : State, s.Inv → step s = .next t → t.Inv

/-- Every operation completes: from a state that meets the invariant, every well-formed operation that the receiver
decodes there answers a next state. No fault and no refusal is left (R20, R38, R80). -/
def Obligations.EveryOperationCompletes : Prop :=
  ∀ (i : Instr) (s : State), s.Inv → i.wf = true → i.availableIn s.rxState = true → ∃ t, exec i s = .next t

/-- A step from a state that meets the invariant never faults, and refuses only a transaction that does not decode. -/
def Obligations.StepStopsOnlyOnUndecodable : Prop :=
  ∀ s : State, s.Inv →
    (∃ t, step s = .next t) ∨
    (∃ t rest e, s.pending = t :: rest ∧ decode s.rxState t = .error e ∧ step s = .refused (.undecodable e))

/-! ### CHK -/

/-- `CHK(s)` is `0xFF - (sum(s) mod 256)` (R65). It completes in every state and changes nothing else. -/
def Obligations.ChkIsComplementOfSum : Prop :=
  ∀ (bytes : Bytes) (s : State),
    exec (.chk bytes) s = .next (s.emit .chkRsp (.checksum (BitVec.ofNat 8 (255 - byteSum bytes % 256))))

/-- The laws of R66 (an inference of the spec's own): early and late reduction agree; the subtraction is the bitwise
complement; only the multiset of bytes counts; a zero byte at the end changes nothing. -/
def Obligations.ChkLaws : Prop :=
  (∀ a b : Nat, (a % 256 + b) % 256 = (a + b) % 256) ∧
  (∀ acc : Byte, acc.toNat ≤ 255 ∧ 0xFF#8 - acc = acc ^^^ 0xFF#8) ∧
  ∀ (xs ys : Bytes) (s : State),
    (xs.Perm ys → exec (.chk xs) s = exec (.chk ys) s) ∧
    exec (.chk (xs ++ ys)) s = exec (.chk (ys ++ xs)) s ∧
    exec (.chk (xs ++ [0x00#8])) s = exec (.chk xs) s

/-- The verification identity (R67, an inference of the spec's own): `c = CHK(s)` exactly when `sum(s) + c` is `0xFF`
modulo 256, and a frame passes `VERIFY` exactly when its covered range plus its checksum byte is. -/
def Obligations.VerificationIdentity : Prop :=
  (∀ (bytes : Bytes) (c : Byte) (s : State),
    exec (.chk bytes) s = .next (s.emit .chkRsp (.checksum c)) ↔ (byteSum bytes + c.toNat) % 256 = 255) ∧
  (∀ (covered : Bytes) (d h l c : Byte) (s : State),
    EndsWith (exec (.verify (d :: h :: l :: (covered ++ [c]))) s) s .valid ↔
      (byteSum covered + c.toNat) % 256 = 255)

/-! ### VERIFY, EXTRACT, ANGLE -/

/-- `VERIFY(F)` (R100): for `|F| ≥ 4` it is `Valid` when the trailing byte is the checksum of offsets `3 .. T-2`, and
`ChecksumMismatch` otherwise; it changes nothing else. -/
def Obligations.VerifyComparesTrailingByte : Prop :=
  ∀ (f : Bytes) (s : State), 4 ≤ f.length →
    EndsWith (exec (.verify f) s) s
      (if f[f.length - 1]? = some (BitVec.ofNat 8 (255 - byteSum (f.dropLast.drop 3) % 256)) then .valid
       else .checksumMismatch)

/-- `VERIFY` has no meaning on fewer than 4 bytes: it is refused and gives no verdict (R102, U6). -/
def Obligations.VerifyRefusesShortInput : Prop :=
  ∀ (f : Bytes) (s : State), f.length < 4 → exec (.verify f) s = .refused .verifyDomain

/-- Changing exactly one covered byte, or the checksum byte alone, turns the verdict from pass to fail (R68,
an inference of the spec's own). -/
def Obligations.SingleByteChangeDetected : Prop :=
  ∀ (f : Bytes) (k : Nat) (b : Byte) (s : State), 4 ≤ f.length → 3 ≤ k → k < f.length → f[k]? ≠ some b →
    EndsWith (exec (.verify f) s) s .valid → EndsWith (exec (.verify (f.set k b)) s) s .checksumMismatch

/-- `EXTRACT(F)` (R103 to R105): a frame of fewer than 18 bytes is too short; otherwise the payload is the bytes from
offset 17 on, all but the last, clamped to the first 82. It changes nothing else. -/
def Obligations.ExtractTakesPayload : Prop :=
  ∀ (f : Bytes) (s : State),
    (f.length < 18 → EndsWith (exec (.extract f) s) s .frameTooShort) ∧
    (18 ≤ f.length → ∃ p : Bytes, EndsWith (exec (.extract f) s) s (.payload p) ∧
      p.length = min (f.length - 18) 82 ∧ ∀ j < p.length, p[j]? = f[17 + j]?)

/-- `ANGLE(P)` (R106 to R108): an angle exactly when `P` is not empty, holds ASCII digits only and its value as a decimal
number, never truncated, is in `[1,180]`; `PayloadOutOfRange` otherwise. It changes nothing else. -/
def Obligations.AngleReadsDecimal : Prop :=
  ∀ (p : Bytes) (s : State),
    let value := Nat.ofDigits 10 (p.reverse.map fun d => d.toNat - 0x30)
    (p ≠ [] ∧ (∀ d ∈ p, 0x30 ≤ d.toNat ∧ d.toNat ≤ 0x39) ∧ 1 ≤ value ∧ value ≤ 180 →
      EndsWith (exec (.angle p) s) s (.angle (BitVec.ofNat 8 value))) ∧
    (¬ (p ≠ [] ∧ (∀ d ∈ p, 0x30 ≤ d.toNat ∧ d.toNat ≤ 0x39) ∧ 1 ≤ value ∧ value ≤ 180) →
      EndsWith (exec (.angle p) s) s .payloadOutOfRange)

/-- Leading zeros do not change the reading of a payload (R107). -/
def Obligations.AngleIgnoresLeadingZeros : Prop :=
  ∀ (n : Nat) (p : Bytes) (s : State), p ≠ [] →
    exec (.angle (List.replicate n 0x30#8 ++ p)) s = exec (.angle p) s

/-! ### ENCODE -/

/-- The output of `ENCODE` on a payload that fits, index by index (R72), with `n = |payload|`; nothing else changes. -/
def Obligations.EncodeFieldsByOffset : Prop :=
  ∀ (p : Bytes) (dest : Dest) (frameId : Byte) (s : State), p.length + 18 ≤ 100 →
    ∃ w : Bytes,
      exec (.encode p dest frameId) s = .next (s.emit .encRsp (.encoded w)) ∧
      w.length = p.length + 18 ∧
      w[0]? = some 0x7E#8 ∧
      w[1]? = some (BitVec.ofNat 8 ((14 + p.length) / 256)) ∧ w[1]? = some 0x00#8 ∧
      w[2]? = some (BitVec.ofNat 8 ((14 + p.length) % 256)) ∧
      w[3]? = some 0x10#8 ∧ w[4]? = some frameId ∧
      (∀ k : Fin 8, w[5 + k.val]? = some (dest.get k)) ∧
      w[13]? = some 0xFF#8 ∧ w[14]? = some 0xFE#8 ∧ w[15]? = some 0x00#8 ∧ w[16]? = some 0x00#8 ∧
      (∀ j < p.length, w[17 + j]? = p[j]?) ∧
      ∃ c, w[17 + p.length]? = some c ∧
        exec (.chk ((w.take (17 + p.length)).drop 3)) s = .next (s.emit .chkRsp (.checksum c))

/-- `ENCODE` succeeds if and only if `n + 18 ≤ CAPACITY`; otherwise it fails with `OversizePayload`, no byte is produced
and nothing else changes (R71). -/
def Obligations.EncodeSucceedsIffItFits : Prop :=
  ∀ (p : Bytes) (dest : Dest) (frameId : Byte) (s : State),
    ((∃ w, exec (.encode p dest frameId) s = .next (s.emit .encRsp (.encoded w))) ↔ p.length + 18 ≤ 100) ∧
    (100 < p.length + 18 → exec (.encode p dest frameId) s = .next (s.emit .encRsp .oversizePayload))

/-- The frame `ENCODE` builds by R70 is the frame the wire encoder builds by the field table of R45. -/
def Obligations.EncodeBuildsTheWireFrame : Prop :=
  ∀ (p : Bytes) (dest : Dest) (frameId : Byte) (s : State), p.length + 18 ≤ 100 →
    exec (.encode p dest frameId) s = .next (s.emit .encRsp (.encoded (encodeFrame frameId dest p)))

/-! ### RX_BYTE and the byte classes -/

/-- `RX_BYTE(b)` does what the row of `b`'s class does (R51, R80). -/
def Obligations.RxByteRunsItsClass : Prop :=
  ∀ (b : Byte) (s : State), exec (.rxByte b) s = exec (decodeByte s.rxState b) s

/-- A delimiter in `Idle` starts a frame; any other byte there is absorbed with no change (R82). -/
def Obligations.IdleByte : Prop :=
  ∀ s : State, s.Inv → s.rxState = .idle →
    (∃ t, exec (.rxByte 0x7E#8) s = .next t ∧ exec .rxbStart s = .next t ∧
      t.rxState = .accLen ∧ t.count = 1 ∧ t.buf.read 0 = some 0x7E#8 ∧ t.expectedTotal = none ∧
      t.outbox = s.outbox ++ [.outcome .rxEvt .none]) ∧
    (∀ b : Byte, b ≠ 0x7E#8 →
      exec (.rxByte b) s = .next (s.emit .rxEvt .none) ∧ exec (.rxbSpurious b) s = .next (s.emit .rxEvt .none))

/-- A byte in `AccLen` (R83): the second byte of a frame is stored at `buf[1]` and the state stays; the third is stored
at `buf[2]`, makes `expected_total` the untruncated `256·buf[1] + buf[2] + 4` and goes to `AccPay`. -/
def Obligations.LengthByte : Prop :=
  ∀ (s : State) (b : Byte), s.Inv → s.rxState = .accLen →
    (s.count.toNat = 1 → ∃ t, exec (.rxByte b) s = .next t ∧ exec (.rxbLength b) s = .next t ∧
      t.rxState = .accLen ∧ t.count.toNat = 2 ∧ t.buf.read 1 = some b ∧ t.expectedTotal = none ∧
      t.outbox = s.outbox ++ [.outcome .rxEvt .none]) ∧
    (s.count.toNat = 2 → ∃ t h e, exec (.rxByte b) s = .next t ∧ exec (.rxbLength b) s = .next t ∧
      s.buf.read 1 = some h ∧
      t.rxState = .accPay ∧ t.count.toNat = 3 ∧ t.buf.read 1 = some h ∧ t.buf.read 2 = some b ∧
      t.expectedTotal = some e ∧ e.toNat = 256 * h.toNat + b.toNat + 4 ∧ 4 ≤ e.toNat ∧ e.toNat ≤ 65539 ∧
      t.outbox = s.outbox ++ [.outcome .rxEvt .none])

/-- Completion in `AccPay` (R84): when the byte brings the count to `expected_total` the outcome is the whole frame, by
value, and the accumulator is empty in `Idle`; this comes before the overflow test. -/
def Obligations.BodyByteCompletes : Prop :=
  ∀ (s : State) (b : Byte) (e : BitVec 17), s.Inv → s.rxState = .accPay → s.expectedTotal = some e →
    e.toNat ≤ s.count.toNat + 1 →
    ∃ (t : State) (f : Bytes), exec (.rxByte b) s = .next t ∧ exec (.rxbBody b) s = .next t ∧
      f.length = s.count.toNat + 1 ∧ (∀ k < s.count.toNat, f[k]? = s.buf.read k) ∧ f[s.count.toNat]? = some b ∧
      t.Fresh ∧ t.outbox = s.outbox ++ [.outcome .rxEvt (.complete f)]

/-- Overflow in `AccPay` (R85): when the byte fills the buffer before `expected_total` is reached the outcome is
`Overflow`, no part of the frame is emitted and the accumulator is empty in `Idle`. -/
def Obligations.BodyByteOverflows : Prop :=
  ∀ (s : State) (b : Byte) (e : BitVec 17), s.Inv → s.rxState = .accPay → s.expectedTotal = some e →
    s.count.toNat + 1 < e.toNat → s.count.toNat + 1 = 100 →
    ∃ t, exec (.rxByte b) s = .next t ∧ exec (.rxbBody b) s = .next t ∧
      t.Fresh ∧ t.buf.read 99 = some b ∧ t.outbox = s.outbox ++ [.outcome .rxEvt .overflow]

/-- A byte overflows exactly when `expected_total > CAPACITY` and it is the one stored at `buf[CAPACITY-1]` (an inference
of the spec's own, in R85). -/
def Obligations.OverflowOnlyPastCapacity : Prop :=
  ∀ (s : State) (b : Byte), s.Inv →
    ((∃ t, exec (.rxByte b) s = .next t ∧ t.outbox = s.outbox ++ [.outcome .rxEvt .overflow]) ↔
      s.rxState = .accPay ∧ s.count.toNat = 99 ∧ ∃ e, s.expectedTotal = some e ∧ 100 < e.toNat)

/-- Otherwise in `AccPay` (R86) the byte stays in the buffer, `state` and `expected_total` are unchanged. -/
def Obligations.BodyByteAccumulates : Prop :=
  ∀ (s : State) (b : Byte) (e : BitVec 17), s.Inv → s.rxState = .accPay → s.expectedTotal = some e →
    s.count.toNat + 1 < e.toNat → s.count.toNat + 1 < 100 →
    ∃ t, exec (.rxByte b) s = .next t ∧ exec (.rxbBody b) s = .next t ∧
      t.rxState = .accPay ∧ t.count.toNat = s.count.toNat + 1 ∧ t.expectedTotal = some e ∧
      t.buf.read s.count.toNat = some b ∧ t.outbox = s.outbox ++ [.outcome .rxEvt .none]

/-- A byte class exists only in the states in which the receiver decodes it (R51); elsewhere it is refused by name. -/
def Obligations.ByteClassRefusedElsewhere : Prop :=
  ∀ (s : State) (b : Byte),
    (s.rxState ≠ .idle → exec .rxbStart s = .refused (.classNotDecoded .start)) ∧
    (s.rxState ≠ .idle → exec (.rxbSpurious b) s = .refused (.classNotDecoded .spurious)) ∧
    (s.rxState ≠ .accLen → exec (.rxbLength b) s = .refused (.classNotDecoded .length)) ∧
    (s.rxState ≠ .accPay → exec (.rxbBody b) s = .refused (.classNotDecoded .body))

/-- Every transfer of `state` (R89), with `c` the count after the append; the operations of the encoder side transfer
nothing. -/
def Obligations.StateTransitionTable : Prop :=
  (∀ s t : State, exec .rxTimeout s = .next t →
    (s.rxState ≠ .idle → t.rxState = .idle ∧ t.outbox = s.outbox ++ [.outcome .rxEvt .idleTimeout]) ∧
    (s.rxState = .idle → t.rxState = .idle ∧ t.outbox = s.outbox ++ [.outcome .rxEvt .none])) ∧
  (∀ s t : State, exec .reset s = .next t →
    t.rxState = .idle ∧ ∃ ch, t.outbox = s.outbox ++ [.outcome ch .none]) ∧
  (∀ (i : Instr) (s t : State), encoderSide i = true → exec i s = .next t → t.rxState = s.rxState) ∧
  ∀ (s t : State) (b : Byte), s.Inv → exec (.rxByte b) s = .next t →
    ∃ o, t.outbox = s.outbox ++ [.outcome .rxEvt o] ∧
      let c := s.count.toNat + 1
      ((s.rxState = .idle ∧ b = 0x7E#8 ∧ t.rxState = .accLen ∧ o = .none) ∨
       (s.rxState = .idle ∧ b ≠ 0x7E#8 ∧ t.rxState = .idle ∧ o = .none) ∨
       (s.rxState = .accLen ∧ c = 2 ∧ t.rxState = .accLen ∧ o = .none) ∨
       (s.rxState = .accLen ∧ c = 3 ∧ t.rxState = .accPay ∧ o = .none) ∨
       (s.rxState = .accPay ∧ (∃ e f, s.expectedTotal = some e ∧ e.toNat ≤ c ∧ o = .complete f) ∧ t.rxState = .idle) ∨
       (s.rxState = .accPay ∧ (∃ e, s.expectedTotal = some e ∧ c < e.toNat) ∧ c = 100 ∧ t.rxState = .idle ∧
         o = .overflow) ∨
       (s.rxState = .accPay ∧ (∃ e, s.expectedTotal = some e ∧ c < e.toNat) ∧ c < 100 ∧ t.rxState = .accPay ∧
         o = .none))

/-- `MemRead(1, 2)` is the big-endian value of the two length bytes (R35). -/
def Obligations.LengthReadIsBigEndian : Prop :=
  ∀ (s : State) (h l : Byte), 3 ≤ s.count.toNat → s.buf.read 1 = some h → s.buf.read 2 = some l →
    s.memRead 1 2 = some (256 * h.toNat + l.toNat)

/-! ### RX_BLOCK -/

/-- `RX_BLOCK` is `RX_BYTE` of every byte, in order; the empty block does nothing; a block in two parts is the first and
then the second (R88). From the invariant it completes, with one outcome per byte. -/
def Obligations.RxBlockIsIteratedRxByte : Prop :=
  ∀ s : State,
    exec (.rxBlock []) s = .next s ∧
    (∀ (b : Byte) (bs : Bytes),
      exec (.rxBlock (b :: bs)) s = andThen (exec (.rxByte b) s) fun t => exec (.rxBlock bs) t) ∧
    (∀ xs ys : Bytes,
      exec (.rxBlock (xs ++ ys)) s = andThen (exec (.rxBlock xs) s) fun t => exec (.rxBlock ys) t) ∧
    (∀ bs : Bytes, s.Inv → ∃ (t : State) (os : List OpOutcome), exec (.rxBlock bs) s = .next t ∧
      os.length = bs.length ∧ t.outbox = s.outbox ++ os.map (.outcome .rxEvt))

/-! ### RX_TIMEOUT, RESET, coincident events -/

/-- `RX_TIMEOUT` (R90): out of `Idle` it empties the accumulator and reports `IdleTimeout`; in `Idle` it changes
nothing. -/
def Obligations.RxTimeoutDropsPartialFrame : Prop :=
  ∀ s : State,
    (s.rxState ≠ .idle → ∃ t, exec .rxTimeout s = .next t ∧ t.rxState = .idle ∧ t.count = 0 ∧ t.expectedTotal = none ∧
      (∀ a, t.buf.read a = s.buf.read a) ∧ t.pending = s.pending ∧
      t.outbox = s.outbox ++ [.outcome .rxEvt .idleTimeout]) ∧
    (s.rxState = .idle → exec .rxTimeout s = .next (s.emit .rxEvt .none))

/-- `RESET` (R160): from every state, `Idle`, empty, `expected_total` none, outcome `None`; `buf` is not cleared. -/
def Obligations.ResetOperation : Prop :=
  ∀ s : State, ∃ t, exec .reset s = .next t ∧ t.rxState = .idle ∧ t.count = 0 ∧ t.expectedTotal = none ∧
    (∀ a, t.buf.read a = s.buf.read a) ∧ t.pending = s.pending ∧
    ∃ ch, t.outbox = s.outbox ++ [.outcome ch .none]

/-- Events seen in one cycle are presented in the order of R141: `RESET` alone; else a byte, and the timeout is
withdrawn; else the timeout. The next step performs what is left of them. That the events reach the machine as the list
`arbitrate` leaves is the model's choice (log entry 9), and so is that a step with nothing waiting keeps the state, the
last clause (log entry 1; R93: no operation happens). -/
def Obligations.CoincidentEventsOrdered : Prop :=
  ∀ (s : State) (byte : Option Byte) (timeout : Bool) (b : Byte), s.pending = [] →
    step (s.present (arbitrate ⟨true, byte, timeout⟩)) = exec .reset s ∧
    step (s.present (arbitrate ⟨false, some b, timeout⟩)) = exec (.rxByte b) s ∧
    step (s.present (arbitrate ⟨false, none, true⟩)) = exec .rxTimeout s ∧
    step (s.present (arbitrate ⟨false, none, false⟩)) = .next s

/-! ### The whole receive path -/

/-- `RX_DELIVER(b)` is `RX_BYTE(b)` and then, on a Complete frame, `VERIFY`, `EXTRACT` and `ANGLE` in that order, and the
first that fails decides (R110, R111). Three clauses are not the spec's own words: the accumulator is left as `RX_BYTE`
leaves it (in R110, an inference of the spec's own); the request stands before the `Angle` outcome (DESIGN CHOICE, log
entry 3); no `rx_evt` outcome goes out beside the one on `deliver` (DEDUCED, log entry 3). -/
def Obligations.RxDeliverChainsTheChecks : Prop :=
  ∀ (b : Byte) (s : State), s.Inv →
    ∃ (t u : State) (o : OpOutcome) (outs : List Output),
      exec (.rxByte b) s = .next t ∧ t.outbox = s.outbox ++ [.outcome .rxEvt o] ∧
      exec (.rxDeliver b) s = .next u ∧ u.outbox = s.outbox ++ outs ∧
      u.buf = t.buf ∧ u.count = t.count ∧ u.rxState = t.rxState ∧ u.expectedTotal = t.expectedTotal ∧
      u.pending = t.pending ∧
      ((∀ f, o ≠ .complete f) → outs = [.outcome .deliver o]) ∧
      (∀ f, o = .complete f →
        (EndsWith (exec (.verify f) s) s .checksumMismatch → outs = [.outcome .deliver .checksumMismatch]) ∧
        (EndsWith (exec (.verify f) s) s .valid →
          (EndsWith (exec (.extract f) s) s .frameTooShort → outs = [.outcome .deliver .frameTooShort]) ∧
          (∀ p, EndsWith (exec (.extract f) s) s (.payload p) →
            (EndsWith (exec (.angle p) s) s .payloadOutOfRange → outs = [.outcome .deliver .payloadOutOfRange]) ∧
            (∀ a, EndsWith (exec (.angle p) s) s (.angle a) →
              outs = [.applyPosition a, .outcome .deliver (.angle a)]))))

/-- The wire frame as an operation is its words, in wire order, each taken by `RX_DELIVER`; from the invariant it
completes. That this is its meaning is the model's choice (log entry 2). -/
def Obligations.WireFrameIsItsBytesDelivered : Prop :=
  ∀ (frameId : Byte) (dest : Dest) (p : Bytes) (s : State),
    exec (.frameTxReq frameId dest p) s = feed (fun b u => exec (.rxDeliver b) u) (encodeFrame frameId dest p) s ∧
    (s.Inv → ∃ t, exec (.frameTxReq frameId dest p) s = .next t)

/-- What reaches the Actuator (R21, R112): in every step, one request for each `Angle` outcome on `deliver`, in order,
none otherwise, and each for an angle in `[1,180]`. -/
def Obligations.ActuatorRequestsAreDeliveredAngles : Prop :=
  ∀ s t : State, step s = .next t →
    ∃ new, t.outbox = s.outbox ++ new ∧ requested new = delivered new ∧
      ∀ a ∈ requested new, 1 ≤ a.toNat ∧ a.toNat ≤ 180

/-! ### Outcomes and errors -/

/-- Every operation but the two that feed several bytes ends with exactly one outcome, one that R17 and R50 give it. The
outputs added are that outcome alone, or a request for `a` and then the outcome `Angle(a)`; which of the two an operation
has is not said here (for the request, see `ActuatorRequestsAreDeliveredAngles`). The request before the outcome is the
model's choice (log entry 3; R110, R112). -/
def Obligations.ExactlyOneOutcome : Prop :=
  ∀ (i : Instr) (s t : State), singleOutcome i = true → exec i s = .next t →
    ∃ ch o, mayEndWith i o ∧
      (t.outbox = s.outbox ++ [.outcome ch o] ∨
        ∃ a, o = .angle a ∧ t.outbox = s.outbox ++ [.applyPosition a, .outcome ch o])

/-- The state an error leaves (R143): after every error of the receive path the accumulator is empty in `Idle`; after
`OversizePayload` it is untouched. -/
def Obligations.ErrorsAreRecoveredLocally : Prop :=
  ∀ (i : Instr) (s t : State) (ch : OutChannel) (o : OpOutcome), singleOutcome i = true → exec i s = .next t →
    t.outbox = s.outbox ++ [.outcome ch o] →
    (ch = .rxEvt ∨ ch = .deliver →
      o = .overflow ∨ o = .idleTimeout ∨ o = .checksumMismatch ∨ o = .frameTooShort ∨ o = .payloadOutOfRange → t.Fresh) ∧
    (o = .oversizePayload → t.AccumulatorKept s)

/-- The status codes of R136. -/
def Obligations.StatusCodes : Prop :=
  (statusCode .none = 0 ∧ statusCode .valid = 0 ∧
    ∀ (bs : Bytes) (b : Byte), statusCode (.payload bs) = 0 ∧ statusCode (.angle b) = 0 ∧
      statusCode (.encoded bs) = 0 ∧ statusCode (.checksum b) = 0 ∧ statusCode (.complete bs) = 0) ∧
  statusCode .overflow = 1 ∧ statusCode .oversizePayload = 2 ∧ statusCode .checksumMismatch = 3 ∧
  statusCode .payloadOutOfRange = 4 ∧ statusCode .frameTooShort = 5 ∧ statusCode .idleTimeout = 6

/-! ### Frames: what an operation leaves unchanged -/

/-- `CHK`, `ENCODE`, `VERIFY`, `EXTRACT` and `ANGLE` leave every register, every byte of `buf` and the waiting
transactions as they are (R44). -/
def Obligations.EncoderSideFrame : Prop :=
  ∀ (i : Instr) (s t : State), encoderSide i = true → exec i s = .next t →
    t.AccumulatorKept s ∧ t.pending = s.pending

/-- `RX_TIMEOUT` and `RESET` leave every byte of `buf` and the waiting transactions as they are (R90, R160); `count`,
`state` and `expected_total` are what they write. -/
def Obligations.EventFrame : Prop :=
  ∀ (i : Instr) (s t : State), i = .rxTimeout ∨ i = .reset → exec i s = .next t →
    (∀ a, t.buf.read a = s.buf.read a) ∧ t.pending = s.pending

/-- One byte, by `RX_BYTE`, `RX_DELIVER` or its class: it is stored where the append stores it, every other byte of `buf`
reads as before and the waiting transactions are unchanged (R81); `count`, `state` and `expected_total` are what the
receiver writes. -/
def Obligations.OneByteFrame : Prop :=
  ∀ (i : Instr) (b : Byte) (s t : State),
    i = .rxByte b ∨ i = .rxDeliver b ∨ (i = .rxbStart ∧ b = 0x7E#8) ∨ i = .rxbSpurious b ∨ i = .rxbLength b ∨
      i = .rxbBody b →
    exec i s = .next t →
    t.pending = s.pending ∧
    (∀ a, rxStoreAddr b s = some a → t.buf.read a = some b) ∧
    (∀ x, rxStoreAddr b s ≠ some x → t.buf.read x = s.buf.read x)

/-- Several bytes, by `RX_BLOCK` or as a wire frame: a byte of `buf` that none of them is stored at, in the state its
turn finds, reads as before; the waiting transactions are unchanged (R81, R88). That a wire frame is its words fed to
`RX_DELIVER` is the model's choice (log entry 2). -/
def Obligations.ManyBytesFrame : Prop :=
  ∀ (i : Instr) (bytes : Bytes) (s t : State),
    i = .rxBlock bytes ∨ (∃ frameId dest p, i = .frameTxReq frameId dest p ∧ bytes = encodeFrame frameId dest p) →
    exec i s = .next t →
    t.pending = s.pending ∧
    ∀ x, (∀ k b u, bytes[k]? = some b → exec (.rxBlock (bytes.take k)) s = .next u → rxStoreAddr b u ≠ some x) →
      t.buf.read x = s.buf.read x

/-- Nothing reads the waiting transactions or the outputs: with others in their place every operation does the same and
adds the same outputs (R8, R16). That the model records them is its own choice (log entries 1 and 3). -/
def Obligations.ChannelsAreNotRead : Prop :=
  ∀ (i : Instr) (s t : State), exec i s = .next t →
    ∃ new, t.outbox = s.outbox ++ new ∧ t.pending = s.pending ∧
      ∀ (q : List Transaction) (os : List Output),
        exec i { s with pending := q, outbox := os } = .next { t with pending := q, outbox := os ++ new }

/-- An encoder-side and a receiver-side operation commute: in either order they give the same accumulator and each the
same outputs (R44, an inference of the spec's own). -/
def Obligations.EncoderAndReceiverCommute : Prop :=
  ∀ (i j : Instr) (s t u : State), encoderSide i = true → encoderSide j = false →
    exec i s = .next t → exec j s = .next u →
    ∃ (v w : State) (oi oj : List Output), exec j t = .next v ∧ exec i u = .next w ∧
      v.AccumulatorKept w ∧ t.outbox = s.outbox ++ oi ∧ u.outbox = s.outbox ++ oj ∧
      v.outbox = t.outbox ++ oj ∧ w.outbox = u.outbox ++ oi

/-- Accumulators that agree on `state`, `count`, `expected_total` and `buf[0..count-1]` are the same: no sequence of steps
tells them apart by its outputs, whatever older bytes `buf` holds (R11; R24, an inference of the spec's own). -/
def Obligations.StaleBytesAreUnobservable : Prop :=
  ∀ s s' : State, s.SameAccumulator s' → s.pending = s'.pending → s.outbox = s'.outbox →
    ∀ n : Nat,
      (∀ t, Sys2Proof.core.run n s = .next t → ∃ t' : State, Sys2Proof.core.run n s' = .next t' ∧
        State.SameAccumulator t t' ∧ State.pending t = t'.pending ∧ State.outbox t = t'.outbox) ∧
      (∀ r, Sys2Proof.core.run n s = .fault r → Sys2Proof.core.run n s' = .fault r) ∧
      (∀ r, Sys2Proof.core.run n s = .refused r → Sys2Proof.core.run n s' = .refused r)

/-! ### The testable properties of the source, each an inference the spec marks as its own (R120 to R128) -/

/-- Round trip (R120): every payload of 0 to 82 bytes is encoded and extracted unchanged. -/
def Obligations.PayloadRoundTrip : Prop :=
  ∀ (p : Bytes) (dest : Dest) (frameId : Byte) (s : State), p.length ≤ 82 →
    ∃ w, exec (.encode p dest frameId) s = .next (s.emit .encRsp (.encoded w)) ∧
      EndsWith (exec (.extract w) s) s (.payload p)

/-- Every encoded frame is well formed and valid (R121). -/
def Obligations.EncodedFramesAreValid : Prop :=
  ∀ (p : Bytes) (dest : Dest) (frameId : Byte) (w : Bytes) (s : State),
    exec (.encode p dest frameId) s = .next (s.emit .encRsp (.encoded w)) →
    w[0]? = some 0x7E#8 ∧
    (∃ h l : Byte, w[1]? = some h ∧ w[2]? = some l ∧ (be16 h l).toNat + 4 = w.length) ∧
    18 ≤ w.length ∧ w.length ≤ 100 ∧ EndsWith (exec (.verify w) s) s .valid

/-- Byte-at-a-time equivalence and noise tolerance (R122, R123): noise without a delimiter, then an encoded frame, fed to
a fresh receiver, gives `None` for every byte but the last and `Complete` of the frame for the last; the receiver is
fresh again. -/
def Obligations.NoiseThenFrameIsReceived : Prop :=
  ∀ (z p : Bytes) (dest : Dest) (frameId : Byte) (s : State), s.Fresh → (∀ b ∈ z, b ≠ 0x7E#8) → p.length ≤ 82 →
    ∃ (w : Bytes) (t : State), exec (.encode p dest frameId) s = .next (s.emit .encRsp (.encoded w)) ∧
      exec (.rxBlock (z ++ w)) s = .next t ∧ t.Fresh ∧
      t.outbox = s.outbox ++ List.replicate (z.length + w.length - 1) (.outcome .rxEvt .none) ++
        [.outcome .rxEvt (.complete w)]

/-- Overflow safety (R124): a frame that announces more than 100 bytes gives `None` 99 times and then `Overflow`, and the
receiver is fresh again; when no delimiter stands in the tail, a valid frame after it is received. -/
def Obligations.OversizeFrameOverflows : Prop :=
  ∀ (bytes : Bytes) (h l : Byte) (s : State), s.Fresh → bytes[0]? = some 0x7E#8 → bytes[1]? = some h →
    bytes[2]? = some l → 100 < (be16 h l).toNat + 4 → 100 ≤ bytes.length →
    (∃ t, exec (.rxBlock (bytes.take 100)) s = .next t ∧ t.Fresh ∧
      t.outbox = s.outbox ++ List.replicate 99 (.outcome .rxEvt .none) ++ [.outcome .rxEvt .overflow]) ∧
    ((∀ b ∈ bytes.drop 100, b ≠ 0x7E#8) →
      ∀ (p : Bytes) (dest : Dest) (frameId : Byte), p.length ≤ 82 →
        ∃ (w : Bytes) (v : State), exec (.encode p dest frameId) s = .next (s.emit .encRsp (.encoded w)) ∧
          exec (.rxBlock (bytes ++ w)) s = .next v ∧ v.Fresh ∧
          ∃ earlier, v.outbox = s.outbox ++ earlier ++ [.outcome .rxEvt (.complete w)])

/-- The range cases of R125 that `ANGLE` decides. -/
def Obligations.RangeRejectionCases : Prop :=
  ∀ s : State,
    EndsWith (exec (.angle [0x30]) s) s .payloadOutOfRange ∧
    EndsWith (exec (.angle [0x31, 0x38, 0x31]) s) s .payloadOutOfRange ∧
    EndsWith (exec (.angle [0x39, 0x39, 0x39]) s) s .payloadOutOfRange ∧
    EndsWith (exec (.angle [0x31]) s) s (.angle 1) ∧
    EndsWith (exec (.angle [0x31, 0x38, 0x30]) s) s (.angle 180)

/-- Every emitted frame is length-validated (R92, an inference of the spec's own): it begins with the delimiter, its
length field announces its size, its size is `expected_total` and is 4 to 100. -/
def Obligations.EmittedFramesAreLengthValidated : Prop :=
  ∀ (s t : State) (b : Byte) (f : Bytes), s.Inv → exec (.rxByte b) s = .next t →
    t.outbox = s.outbox ++ [.outcome .rxEvt (.complete f)] →
    f[0]? = some 0x7E#8 ∧ (∃ h l : Byte, f[1]? = some h ∧ f[2]? = some l ∧ (be16 h l).toNat + 4 = f.length) ∧
    (∃ e, s.expectedTotal = some e ∧ e.toNat = f.length) ∧ 4 ≤ f.length ∧ f.length ≤ 100

/-- Idempotence (R126): an emitted frame, fed to any fresh receiver, is emitted again on its last byte, with `None`
before. -/
def Obligations.EmittedFramesReparse : Prop :=
  ∀ (s t u : State) (b : Byte) (f : Bytes), s.Inv → exec (.rxByte b) s = .next t →
    t.outbox = s.outbox ++ [.outcome .rxEvt (.complete f)] → u.Fresh →
    ∃ v, exec (.rxBlock f) u = .next v ∧ v.Fresh ∧
      v.outbox = u.outbox ++ List.replicate (f.length - 1) (.outcome .rxEvt .none) ++
        [.outcome .rxEvt (.complete f)]

/-- Whole-path round trip (R128; the whole-path part of R125): an encoded frame fed to a fresh receiver with
`RX_DELIVER` gives `None` for every byte but the last; the last gives the angle its digit string spells, requested once
of the Actuator, or `PayloadOutOfRange` and no request. The request before the outcome, and no `rx_evt` outcome beside
`deliver`, are log entry 3's. -/
def Obligations.FrameDeliversItsAngle : Prop :=
  ∀ (p : Bytes) (dest : Dest) (frameId : Byte) (s : State), s.Fresh → p.length ≤ 82 →
    ∃ (w : Bytes) (t : State) (last : List Output),
      exec (.encode p dest frameId) s = .next (s.emit .encRsp (.encoded w)) ∧
      feed (fun b u => exec (.rxDeliver b) u) w s = .next t ∧ t.Fresh ∧
      t.outbox = s.outbox ++ List.replicate (w.length - 1) (.outcome .deliver .none) ++ last ∧
      (∀ a : Nat, p ≠ [] → (∀ d ∈ p, 0x30 ≤ d.toNat ∧ d.toNat ≤ 0x39) →
        Nat.ofDigits 10 (p.reverse.map fun d => d.toNat - 0x30) = a → 1 ≤ a → a ≤ 180 →
        last = [.applyPosition (BitVec.ofNat 8 a), .outcome .deliver (.angle (BitVec.ofNat 8 a))]) ∧
      (EndsWith (exec (.angle p) s) s .payloadOutOfRange → last = [.outcome .deliver .payloadOutOfRange])

/-- A false frame ends (R168, an inference of the spec's own): from any point inside a frame, at most as many bytes as
the buffer has left bring the receiver back to a fresh state. -/
def Obligations.EveryFrameEndsWithinCapacity : Prop :=
  ∀ (s : State) (bytes : Bytes), s.Inv → s.rxState ≠ .idle → s.count.toNat + bytes.length = 100 →
    ∃ (k : Nat) (u : State), 1 ≤ k ∧ k ≤ bytes.length ∧ exec (.rxBlock (bytes.take k)) s = .next u ∧ u.Fresh
end

