-- ==== Sys2Proof/Laws/Memory.lean ====
section
/-! SUPPORT. The laws of `buf`: read after write, canonical form, address space, ranges. -/

namespace Sys2Proof.Machine.Memory

/-- A read after a write to the same address gives the byte written. -/
@[simp] theorem read_write_same (m : Memory) (a : Nat) (b : Byte) : (write m a b).read a = some b := by
  induction m with
  | nil => simp [write, read]
  | cons c m ih =>
    obtain ⟨k, v⟩ := c
    unfold write
    split
    · simp [read]
    · split
      · simp [read]
      · have : k ≠ a := by omega
        simpa [read, this] using ih

/-- A write leaves every other address alone. -/
theorem read_write_other (m : Memory) {a x : Nat} (b : Byte) (h : x ≠ a) : (write m a b).read x = m.read x := by
  induction m with
  | nil => simp [write, read, h.symm]
  | cons c m ih =>
    obtain ⟨k, v⟩ := c
    unfold write
    split
    · simp [read, h.symm]
    · split
      · next e => subst e; simp [read, h.symm]
      · by_cases hk : k = x <;> simp [read, hk, ih]

/-- What one read gives after one write. -/
theorem read_write (m : Memory) (a x : Nat) (b : Byte) :
    (write m a b).read x = if x = a then some b else m.read x := by
  by_cases h : x = a
  · subst h; simp
  · simp [h, read_write_other]

/-- The first address of a list after a write: it was first before, or it is the address written. -/
theorem wf_write_cons {c : Host.Cell} {m : Memory} (hw : wf (c :: m) = true) {a : Nat} (b : Byte)
    (h : c.1 < a) : wf (c :: write m a b) = true := by
  induction m generalizing c with
  | nil => simpa [write, wf] using h
  | cons d m ih =>
    obtain ⟨k, v⟩ := d
    have hw' : c.1 < k ∧ wf ((k, v) :: m) = true := by simpa [wf] using hw
    unfold write
    split
    · next hk => simpa [wf, h, hk] using hw'.2
    · split
      · next hk =>
        subst hk
        cases m with
        | nil => simpa [wf] using h
        | cons e m => simpa [wf, h] using hw'.2
      · have : k < a := by omega
        have := ih hw'.2 this
        simpa [wf, hw'.1] using this

/-- A write keeps the canonical form. -/
theorem wf_write {m : Memory} (hw : wf m = true) (a : Nat) (b : Byte) : wf (write m a b) = true := by
  cases m with
  | nil => simp [write, wf]
  | cons d m =>
    obtain ⟨k, v⟩ := d
    unfold write
    split
    · next hk => simpa [wf, hk] using hw
    · split
      · next hk =>
        subst hk
        cases m with
        | nil => simp [wf]
        | cons e m => simpa [wf] using hw
      · exact wf_write_cons hw b (by simp only; omega)

/-- A write to an address that exists keeps the listed addresses within the space. -/
theorem inSpace_write {m : Memory} (hm : inSpace m = true) {a : Nat} (ha : a < Config.capacity) (b : Byte) :
    inSpace (write m a b) = true := by
  induction m with
  | nil =>
    simp only [write, inSpace, List.all_cons, List.all_nil, Bool.and_true]
    exact decide_eq_true ha
  | cons d m ih =>
    obtain ⟨k, v⟩ := d
    simp only [inSpace, List.all_cons, Bool.and_eq_true] at hm ih
    unfold write
    split
    · simp only [inSpace, List.all_cons, Bool.and_eq_true]
      exact ⟨decide_eq_true ha, hm⟩
    · split
      · simp only [inSpace, List.all_cons, Bool.and_eq_true]
        exact ⟨decide_eq_true ha, hm.2⟩
      · simp only [inSpace, List.all_cons, Bool.and_eq_true]
        exact ⟨hm.1, ih hm.2⟩

/-- An address that was written is within the space. -/
theorem lt_capacity_of_read {m : Memory} (hm : inSpace m = true) {a : Nat} {b : Byte} (h : m.read a = some b) :
    a < Config.capacity := by
  induction m with
  | nil => simp [read] at h
  | cons d m ih =>
    obtain ⟨k, v⟩ := d
    simp only [inSpace, List.all_cons, Bool.and_eq_true, decide_eq_true_eq] at hm ih
    unfold read at h
    split at h
    · next hk => exact hk ▸ hm.1
    · exact ih hm.2 h

/-- What a range read says of each of its bytes. -/
theorem readRange_eq_some {m : Memory} {a n : Nat} {bs : Bytes} :
    m.readRange a n = some bs ↔ bs.length = n ∧ ∀ k < n, m.read (a + k) = bs[k]? := by
  induction n generalizing a bs with
  | zero => simp [readRange, eq_comm (a := []), List.length_eq_zero_iff]
  | succ n ih =>
    simp only [readRange]
    constructor
    · intro h
      split at h
      · next b cs hb hcs =>
        cases h
        obtain ⟨hl, hk⟩ := ih.1 hcs
        refine ⟨by simp [hl], fun k hlt => ?_⟩
        cases k with
        | zero => simpa using hb
        | succ k => simpa [Nat.add_assoc, Nat.add_comm 1 k] using hk k (by omega)
      · cases h
    · rintro ⟨hl, hk⟩
      cases bs with
      | nil => simp at hl
      | cons b cs =>
        have hb : m.read a = some b := by simpa using hk 0 (by omega)
        have hcs : m.readRange (a + 1) n = some cs := by
          refine ih.2 ⟨by simpa using hl, fun k hlt => ?_⟩
          simpa [Nat.add_assoc, Nat.add_comm 1 k] using hk (k + 1) (by omega)
        simp [hb, hcs]

/-- A range all of whose bytes were written can be read. -/
theorem readRange_isSome {m : Memory} {a n : Nat} (h : ∀ k < n, (m.read (a + k)).isSome = true) :
    ∃ bs, m.readRange a n = some bs := by
  induction n generalizing a with
  | zero => exact ⟨[], rfl⟩
  | succ n ih =>
    obtain ⟨b, hb⟩ := Option.isSome_iff_exists.1 (h 0 (by omega))
    obtain ⟨cs, hcs⟩ := ih (a := a + 1) fun k hk => by
      simpa [Nat.add_assoc, Nat.add_comm 1 k] using h (k + 1) (by omega)
    exact ⟨b :: cs, by simp only [Nat.add_zero] at hb; simp [readRange, hb, hcs]⟩

/-- A range read depends on its own bytes alone. -/
theorem readRange_congr {m m' : Memory} {a n : Nat} (h : ∀ k < n, m.read (a + k) = m'.read (a + k)) :
    m.readRange a n = m'.readRange a n := by
  induction n generalizing a with
  | zero => rfl
  | succ n ih =>
    have h0 : m.read a = m'.read a := by simpa using h 0 (by omega)
    have hn : m.readRange (a + 1) n = m'.readRange (a + 1) n := ih fun k hk => by
      simpa [Nat.add_assoc, Nat.add_comm 1 k] using h (k + 1) (by omega)
    simp [readRange, h0, hn]

/-- Memory right after reset is in canonical form. -/
theorem wf_reset : State.reset.buf.wf = true := rfl

end Sys2Proof.Machine.Memory
end

