-- ==== Sys2Proof/Laws/State.lean ====
section
/-! SUPPORT. One lemma per field per update of State. -/

namespace Sys2Proof.Machine.State

variable (s : State) (ch : OutChannel) (o : OpOutcome) (a : Byte) (ts : List Transaction)

@[simp] theorem emit_buf : (s.emit ch o).buf = s.buf := rfl
@[simp] theorem emit_count : (s.emit ch o).count = s.count := rfl
@[simp] theorem emit_rxState : (s.emit ch o).rxState = s.rxState := rfl
@[simp] theorem emit_expectedTotal : (s.emit ch o).expectedTotal = s.expectedTotal := rfl
@[simp] theorem emit_pending : (s.emit ch o).pending = s.pending := rfl
@[simp] theorem emit_outbox : (s.emit ch o).outbox = s.outbox ++ [.outcome ch o] := rfl

@[simp] theorem requestPosition_buf : (s.requestPosition a).buf = s.buf := rfl
@[simp] theorem requestPosition_count : (s.requestPosition a).count = s.count := rfl
@[simp] theorem requestPosition_rxState : (s.requestPosition a).rxState = s.rxState := rfl
@[simp] theorem requestPosition_expectedTotal : (s.requestPosition a).expectedTotal = s.expectedTotal := rfl
@[simp] theorem requestPosition_pending : (s.requestPosition a).pending = s.pending := rfl
@[simp] theorem requestPosition_outbox : (s.requestPosition a).outbox = s.outbox ++ [.applyPosition a] := rfl

@[simp] theorem cleared_buf : s.cleared.buf = s.buf := rfl
@[simp] theorem cleared_count : s.cleared.count = 0 := rfl
@[simp] theorem cleared_rxState : s.cleared.rxState = s.rxState := rfl
@[simp] theorem cleared_expectedTotal : s.cleared.expectedTotal = none := rfl
@[simp] theorem cleared_pending : s.cleared.pending = s.pending := rfl
@[simp] theorem cleared_outbox : s.cleared.outbox = s.outbox := rfl

@[simp] theorem toIdle_buf : s.toIdle.buf = s.buf := rfl
@[simp] theorem toIdle_count : s.toIdle.count = 0 := rfl
@[simp] theorem toIdle_rxState : s.toIdle.rxState = .idle := rfl
@[simp] theorem toIdle_expectedTotal : s.toIdle.expectedTotal = none := rfl
@[simp] theorem toIdle_pending : s.toIdle.pending = s.pending := rfl
@[simp] theorem toIdle_outbox : s.toIdle.outbox = s.outbox := rfl

@[simp] theorem present_buf : (s.present ts).buf = s.buf := rfl
@[simp] theorem present_count : (s.present ts).count = s.count := rfl
@[simp] theorem present_rxState : (s.present ts).rxState = s.rxState := rfl
@[simp] theorem present_expectedTotal : (s.present ts).expectedTotal = s.expectedTotal := rfl
@[simp] theorem present_pending : (s.present ts).pending = s.pending ++ ts := rfl
@[simp] theorem present_outbox : (s.present ts).outbox = s.outbox := rfl

@[simp] theorem deliverVerdict_buf : (s.deliverVerdict o).buf = s.buf := by cases o <;> rfl
@[simp] theorem deliverVerdict_count : (s.deliverVerdict o).count = s.count := by cases o <;> rfl
@[simp] theorem deliverVerdict_rxState : (s.deliverVerdict o).rxState = s.rxState := by cases o <;> rfl
@[simp] theorem deliverVerdict_expectedTotal : (s.deliverVerdict o).expectedTotal = s.expectedTotal := by
  cases o <;> rfl
@[simp] theorem deliverVerdict_pending : (s.deliverVerdict o).pending = s.pending := by cases o <;> rfl

/-- A fresh receiver is one that was reset to empty. -/
theorem toIdle_fresh : s.toIdle.Fresh := ⟨rfl, rfl, rfl⟩

/-- The appended byte is stored at the count, and after a clear at 0. -/
@[simp] theorem cleared_appendAddr : s.cleared.appendAddr = 0 := rfl

end Sys2Proof.Machine.State
end

