-- ==== Sys2Proof/Laws/Ops.lean ====
section
/-! SUPPORT. What each shared operation can do, said once. -/

namespace Sys2Proof.Machine

@[simp] theorem andThen_next {α β : Type} (a : α) (f : α → Result β) :
    andThen (Host.Outcome.next a : Result α) f = f a := rfl

@[simp] theorem andThen_fault {α β : Type} (e : Fault) (f : α → Result β) :
    andThen (Host.Outcome.fault e : Result α) f = .fault e := rfl

@[simp] theorem andThen_refused {α β : Type} (e : Refusal) (f : α → Result β) :
    andThen (Host.Outcome.refused e : Result α) f = .refused e := rfl

/-- What follows a result answers next only when the result does. -/
theorem andThen_eq_next {α β : Type} {r : Result α} {f : α → Result β} {b : β} :
    andThen r f = .next b ↔ ∃ a, r = .next a ∧ f a = .next b := by
  cases r <;> simp [andThen]

theorem andThen_eq_fault {α β : Type} {r : Result α} {f : α → Result β} {e : Fault} :
    andThen r f = .fault e ↔ r = .fault e ∨ ∃ a, r = .next a ∧ f a = .fault e := by
  cases r <;> simp [andThen]

theorem andThen_eq_refused {α β : Type} {r : Result α} {f : α → Result β} {e : Refusal} :
    andThen r f = .refused e ↔ r = .refused e ∨ ∃ a, r = .next a ∧ f a = .refused e := by
  cases r <;> simp [andThen]

theorem andThen_assoc {α β γ : Type} (r : Result α) (f : α → Result β) (g : β → Result γ) :
    andThen (andThen r f) g = andThen r fun a => andThen (f a) g := by
  cases r <;> rfl

/-! ### The append -/

/-- The state after `append(b)`. -/
def State.appended (s : State) (b : Byte) : State :=
  { s with buf := s.buf.write s.count.toNat b, count := s.count + 1 }

namespace State

variable (s : State) (b : Byte)

@[simp] theorem appended_buf : (s.appended b).buf = s.buf.write s.count.toNat b := rfl
@[simp] theorem appended_count : (s.appended b).count = s.count + 1 := rfl
@[simp] theorem appended_rxState : (s.appended b).rxState = s.rxState := rfl
@[simp] theorem appended_expectedTotal : (s.appended b).expectedTotal = s.expectedTotal := rfl
@[simp] theorem appended_pending : (s.appended b).pending = s.pending := rfl
@[simp] theorem appended_outbox : (s.appended b).outbox = s.outbox := rfl

end State

/-- The count below capacity does not wrap in its 7 bits (R13). -/
theorem count_succ_toNat {c : BitVec 7} (h : c.toNat < Config.capacity) : (c + 1).toNat = c.toNat + 1 := by
  simp only [Config.capacity] at h
  rw [BitVec.toNat_add]
  simp
  omega

/-- The append, whole: it stores and counts below `CAPACITY`, and stops at an address that does not exist. -/
theorem append_eq (s : State) (b : Byte) :
    s.append b =
      if s.count.toNat < Config.capacity then .next (s.appended b) else .fault .bufWriteOutside := by
  unfold State.append State.memWrite State.appendAddr
  split <;> rfl

theorem append_of_lt {s : State} (h : s.count.toNat < Config.capacity) (b : Byte) :
    s.append b = .next (s.appended b) := by
  rw [append_eq, if_pos h]

/-! ### Reads -/

/-- A read inside the architectural part of `buf`, byte by byte. -/
theorem readBytes_eq_some {s : State} {addr n : Nat} {bs : Bytes} :
    s.readBytes addr n = some bs ↔
      addr + n ≤ s.count.toNat ∧ bs.length = n ∧ ∀ k < n, s.buf.read (addr + k) = bs[k]? := by
  unfold State.readBytes
  split
  · next h => simp [h, Memory.readRange_eq_some]
  · next h => simp [h]

/-- A read inside the architectural part succeeds when that part was written. -/
theorem readBytes_isSome {s : State} (hw : s.Written) {addr n : Nat} (h : addr + n ≤ s.count.toNat) :
    ∃ bs, s.readBytes addr n = some bs := by
  unfold State.readBytes
  rw [if_pos h]
  exact Memory.readRange_isSome fun k hk => hw _ (by omega)

/-- The number two bytes spell is their `BE16` (R35). -/
theorem bigEndian_pair (h l : Byte) : bigEndian [h, l] = (be16 h l).toNat := by
  simp only [bigEndian, be16, List.foldl_cons, List.foldl_nil, BitVec.toNat_append]
  rw [← Nat.shiftLeft_add_eq_or_of_lt l.isLt, Nat.shiftLeft_eq]
  omega

/-- `BE16` as a number. -/
theorem be16_toNat (h l : Byte) : (be16 h l).toNat = 256 * h.toNat + l.toNat := by
  rw [← bigEndian_pair]
  simp [bigEndian]

/-- The total that two length bytes announce: their value plus 4, which 17 bits hold (R47, R83). -/
theorem announcedTotal_eq {s : State} (hc : 3 ≤ s.count.toNat) {h l : Byte} (h1 : s.buf.read 1 = some h)
    (h2 : s.buf.read 2 = some l) :
    s.announcedTotal = some (BitVec.ofNat 17 ((be16 h l).toNat + Config.lenAdjust)) := by
  have hr : s.readBytes 1 2 = some [h, l] := by
    refine readBytes_eq_some.2 ⟨by omega, rfl, fun k hk => ?_⟩
    interval_cases k
    · simpa using h1
    · simpa using h2
  simp [State.announcedTotal, State.memRead, hr, bigEndian_pair]

/-- The announced total is not truncated. -/
theorem announcedTotal_toNat (v : Len16) :
    (BitVec.ofNat 17 (v.toNat + Config.lenAdjust)).toNat = v.toNat + Config.lenAdjust := by
  have := v.isLt
  simp only [Config.lenAdjust, BitVec.toNat_ofNat]
  omega

/-! ### The receiver's step -/

/-- Everything a receiver step that answers next can do (R80; the rows of R89 for a byte). -/
theorem rxStep_cases {b : Byte} {s t : State} {o : OpOutcome} (h : rxStep b s = .next (t, o)) :
    (s.rxState = .idle ∧ b = Config.startDelim ∧
      t = { s.cleared.appended Config.startDelim with rxState := .accLen } ∧ o = .none) ∨
    (s.rxState = .idle ∧ b ≠ Config.startDelim ∧ t = s.cleared ∧ o = .none) ∨
    (s.rxState = .accLen ∧ s.count.toNat < Config.capacity ∧ s.count.toNat + 1 ≠ Config.lenFieldEnd ∧
      t = s.appended b ∧ o = .none) ∨
    (s.rxState = .accLen ∧ s.count.toNat + 1 = Config.lenFieldEnd ∧
      ∃ e, (s.appended b).announcedTotal = some e ∧
        t = { s.appended b with expectedTotal := some e, rxState := .accPay } ∧ o = .none) ∨
    (s.rxState = .accPay ∧ s.count.toNat < Config.capacity ∧
      ∃ e f, s.expectedTotal = some e ∧ e.toNat ≤ s.count.toNat + 1 ∧
        (s.appended b).readBytes 0 (s.count.toNat + 1) = some f ∧ t = (s.appended b).toIdle ∧ o = .complete f) ∨
    (s.rxState = .accPay ∧ s.count.toNat + 1 = Config.capacity ∧
      ∃ e, s.expectedTotal = some e ∧ s.count.toNat + 1 < e.toNat ∧ t = (s.appended b).toIdle ∧ o = .overflow) ∨
    (s.rxState = .accPay ∧ s.count.toNat + 1 < Config.capacity ∧
      ∃ e, s.expectedTotal = some e ∧ s.count.toNat + 1 < e.toNat ∧ t = s.appended b ∧ o = .none) := by
  unfold rxStep at h
  cases hs : s.rxState with
  | idle =>
    by_cases hb : b = Config.startDelim
    · rw [hs, classify, if_pos hb] at h
      simp only [armStart, append_of_lt (s := s.cleared) (by simp), andThen_next, Host.Outcome.next.injEq,
        Prod.mk.injEq] at h
      exact .inl ⟨rfl, hb, h.1.symm, h.2.symm⟩
    · rw [hs, classify, if_neg hb] at h
      simp only [armSpurious, Host.Outcome.next.injEq, Prod.mk.injEq] at h
      exact .inr (.inl ⟨rfl, hb, h.1.symm, h.2.symm⟩)
  | accLen =>
    simp only [hs, classify, armLength] at h
    obtain ⟨u, hu, h⟩ := andThen_eq_next.1 h
    rw [append_eq] at hu
    split at hu
    · next hc =>
      cases hu
      rw [State.appended_count, count_succ_toNat hc] at h
      split at h
      · next h3 =>
        cases he : (s.appended b).announcedTotal with
        | none => simp [he] at h
        | some e =>
          simp only [he, Host.Outcome.next.injEq, Prod.mk.injEq] at h
          exact .inr (.inr (.inr (.inl ⟨rfl, h3, e, rfl, h.1.symm, h.2.symm⟩)))
      · next h3 =>
        simp only [Host.Outcome.next.injEq, Prod.mk.injEq] at h
        exact .inr (.inr (.inl ⟨rfl, hc, h3, h.1.symm, h.2.symm⟩))
    · cases hu
  | accPay =>
    simp only [hs, classify, armBody] at h
    obtain ⟨u, hu, h⟩ := andThen_eq_next.1 h
    rw [append_eq] at hu
    split at hu
    · next hc =>
      cases hu
      rw [State.appended_expectedTotal, State.appended_count] at h
      cases he : s.expectedTotal with
      | none => simp [he] at h
      | some e =>
        simp only [he, frameComplete, bufferFull, count_succ_toNat hc, decide_eq_true_eq] at h
        split at h
        · next hle =>
          cases hf : (s.appended b).readBytes 0 (s.count.toNat + 1) with
          | none => simp [hf] at h
          | some f =>
            simp only [hf, Host.Outcome.next.injEq, Prod.mk.injEq] at h
            exact .inr (.inr (.inr (.inr (.inl ⟨rfl, hc, e, f, rfl, hle, rfl, h.1.symm, h.2.symm⟩))))
        · next hlt =>
          split at h
          · next hfull =>
            simp only [Host.Outcome.next.injEq, Prod.mk.injEq] at h
            exact .inr (.inr (.inr (.inr (.inr (.inl ⟨rfl, hfull, e, rfl, by omega, h.1.symm, h.2.symm⟩)))))
          · next hfull =>
            simp only [Host.Outcome.next.injEq, Prod.mk.injEq] at h
            exact .inr (.inr (.inr (.inr (.inr (.inr ⟨rfl, by omega, e, rfl, by omega, h.1.symm, h.2.symm⟩)))))
    · cases hu

/-- No receiver step is refused: the block never refuses a byte (R20, R80). -/
theorem rxStep_not_refused (b : Byte) (s : State) (r : Refusal) : rxStep b s ≠ .refused r := by
  intro h
  unfold rxStep at h
  split at h
  · simp only [armStart, append_of_lt (s := s.cleared) (by simp), andThen_next, reduceCtorEq] at h
  · simp only [armSpurious, reduceCtorEq] at h
  · simp only [armLength, append_eq] at h
    split at h
    · simp only [andThen_next] at h
      split at h
      · split at h <;> cases h
      · cases h
    · cases h
  · simp only [armBody, append_eq] at h
    split at h
    · simp only [andThen_next] at h
      split at h
      · cases h
      · split at h
        · split at h <;> cases h
        · split at h <;> cases h
    · cases h

/-- A receiver step touches neither the waiting transactions nor the outputs (R16). -/
theorem rxStep_channels {b : Byte} {s t : State} {o : OpOutcome} (h : rxStep b s = .next (t, o)) :
    t.pending = s.pending ∧ t.outbox = s.outbox := by
  obtain ⟨-, -, rfl, -⟩ | ⟨-, -, rfl, -⟩ | ⟨-, -, -, rfl, -⟩ | ⟨-, -, e, -, rfl, -⟩ | ⟨-, -, e, f, -, -, -, rfl, -⟩ |
    ⟨-, -, e, -, -, rfl, -⟩ | ⟨-, -, e, -, -, rfl, -⟩ := rxStep_cases h <;> exact ⟨rfl, rfl⟩

/-- Reporting a receiver step adds its outcome to the outputs and does nothing else. -/
theorem reportRx_eq_next {r : Result (State × OpOutcome)} {t : State} :
    reportRx r = .next t ↔ ∃ u o, r = .next (u, o) ∧ t = u.emit .rxEvt o := by
  unfold reportRx
  rw [andThen_eq_next]
  constructor
  · rintro ⟨⟨u, o⟩, hr, h⟩
    exact ⟨u, o, hr, by simpa using h.symm⟩
  · rintro ⟨u, o, hr, rfl⟩
    exact ⟨(u, o), hr, rfl⟩

/-! ### Feeding bytes -/

@[simp] theorem feed_nil (take : Byte → State → Result State) (s : State) : feed take [] s = .next s := rfl

@[simp] theorem feed_cons (take : Byte → State → Result State) (b : Byte) (bs : Bytes) (s : State) :
    feed take (b :: bs) s = andThen (take b s) (feed take bs) := rfl

/-- Feeding two sequences is feeding the first and then the second. -/
theorem feed_append (take : Byte → State → Result State) (xs ys : Bytes) (s : State) :
    feed take (xs ++ ys) s = andThen (feed take xs s) (feed take ys) := by
  induction xs generalizing s with
  | nil => rfl
  | cons x xs ih =>
    simp only [List.cons_append, feed_cons, andThen_assoc]
    congr 1
    funext t
    exact ih t

/-- What every byte keeps, a feed keeps. -/
theorem feed_keeps {take : Byte → State → Result State} {P : State → Prop}
    (hstep : ∀ b s t, P s → take b s = .next t → P t) {bs : Bytes} {s t : State} (hs : P s)
    (h : feed take bs s = .next t) : P t := by
  induction bs generalizing s with
  | nil => cases h; exact hs
  | cons b bs ih =>
    obtain ⟨u, hu, h⟩ := andThen_eq_next.1 h
    exact ih (hstep b s u hs hu) h

/-! ### The whole receive path -/

/-- What the receive path does with an outcome that is not a Complete frame. -/
theorem judge_of_not_complete (s : State) {o : OpOutcome} (h : ∀ f, o ≠ .complete f) :
    judge s o = .next (s.emit .deliver o) := by
  cases o <;> first | rfl | exact absurd rfl (h _)

/-- What the receive path does with a Complete frame of at least 4 bytes. -/
theorem judge_complete (s : State) {f : Bytes} (h : Config.lenAdjust ≤ f.length) :
    judge s (.complete f) = .next (s.deliverVerdict (frameVerdict f)) := by
  simp only [judge]
  rw [if_neg (by omega)]

/-- A verdict on a frame is one of four outcomes (R110). -/
theorem frameVerdict_cases (f : Bytes) :
    frameVerdict f = .checksumMismatch ∨ frameVerdict f = .frameTooShort ∨ frameVerdict f = .payloadOutOfRange ∨
      ∃ p a, payloadOf f = some p ∧ angleOf p = some a ∧ frameVerdict f = .angle a := by
  unfold frameVerdict
  split
  · cases hp : payloadOf f with
    | none => simp
    | some p =>
      cases ha : angleOf p with
      | none => simp [ha]
      | some a => exact .inr (.inr (.inr ⟨p, a, rfl, ha, by simp [ha]⟩))
  · simp

/-- An angle that was read is in `[1,180]` (R108). -/
theorem angleOf_range {p : Bytes} {a : Byte} (h : angleOf p = some a) :
    Config.angleMin ≤ a.toNat ∧ a.toNat ≤ Config.angleMax := by
  unfold angleOf at h
  cases hv : decimalValue p with
  | none => simp [hv] at h
  | some v =>
    by_cases hr : v < Config.angleMin ∨ Config.angleMax < v
    · simp only [hv, if_pos hr, reduceCtorEq] at h
    · simp only [hv, if_neg hr, Option.some.injEq] at h
      subst h
      simp only [Config.angleMin, Config.angleMax] at hr
      simp only [BitVec.toNat_ofNat, Config.angleMin, Config.angleMax]
      omega

end Sys2Proof.Machine
end

