-- ==== Sys2Proof/Laws/PerInstr.lean ====
section
/-! SUPPORT. What holds of every operation as syntax: there is a state in which the receiver decodes it, so no row of the
opcode table is shut out of every run. -/

namespace Sys2Proof.Laws.Available

/-- Some state of the receiver decodes the operation (R51, R80). -/
def Statement (i : Instr) : Prop := ∃ st : RxState, i.availableIn st = true

theorem chk (s : Bytes) : Statement (.chk s) := ⟨.idle, rfl⟩
theorem encode (payload : Bytes) (dest : Dest) (frameId : Byte) : Statement (.encode payload dest frameId) := ⟨.idle, rfl⟩
theorem rxByte (b : Byte) : Statement (.rxByte b) := ⟨.idle, rfl⟩
theorem rxBlock (s : Bytes) : Statement (.rxBlock s) := ⟨.idle, rfl⟩
theorem rxTimeout : Statement .rxTimeout := ⟨.idle, rfl⟩
theorem reset : Statement .reset := ⟨.idle, rfl⟩
theorem verify (f : Bytes) : Statement (.verify f) := ⟨.idle, rfl⟩
theorem extract (f : Bytes) : Statement (.extract f) := ⟨.idle, rfl⟩
theorem angle (p : Bytes) : Statement (.angle p) := ⟨.idle, rfl⟩
theorem rxDeliver (b : Byte) : Statement (.rxDeliver b) := ⟨.idle, rfl⟩
theorem frameTxReq (frameId : Byte) (dest : Dest) (payload : Bytes) : Statement (.frameTxReq frameId dest payload) :=
  ⟨.idle, rfl⟩
theorem rxbStart : Statement .rxbStart := ⟨.idle, rfl⟩
theorem rxbSpurious (b : Byte) : Statement (.rxbSpurious b) := ⟨.idle, rfl⟩
theorem rxbLength (b : Byte) : Statement (.rxbLength b) := ⟨.accLen, rfl⟩
theorem rxbBody (b : Byte) : Statement (.rxbBody b) := ⟨.accPay, rfl⟩

end Sys2Proof.Laws.Available
end

