-- ==== Sys2Proof/Tests/Slice0.lean ====
section
/-! SUPPORT. Tests on fixed values, taken from spec/95_test_vectors.md and the tables of spec/30_encoding.md, and a witness
for the hypotheses of every statement that has some. -/

namespace Sys2Proof.Tests

open Sys2Proof Sys2Proof.Machine

/-! ### Helpers -/

/-- The destination of the worked example. -/
def dest90 : Dest := #v[0x00, 0x13, 0xA2, 0x00, 0x42, 0x2D, 0xB5, 0xC4]

/-- The first 19 bytes of `W90`, then its last byte apart (95_test_vectors.md section 1.1). -/
def w90Front : Bytes :=
  [0x7E, 0x00, 0x10, 0x10, 0x01, 0x00, 0x13, 0xA2, 0x00, 0x42, 0x2D, 0xB5, 0xC4, 0xFF, 0xFE, 0x00, 0x00, 0x39, 0x30]

def w90 : Bytes := w90Front ++ [0xEB]

/-- A buffer that holds these bytes from address 0. -/
def bufOf (bs : Bytes) : Memory := (List.range bs.length).zip bs

/-- A receiver that has taken these bytes of a frame. -/
def inFrame (bs : Bytes) (st : RxState) (e : Option (BitVec 17)) : State :=
  { State.reset with buf := bufOf bs, count := BitVec.ofNat 7 bs.length, rxState := st, expectedTotal := e }

/-- A receiver in `AccPay` with `n + 3` bytes of a frame of length field `h l`. -/
def inBody (h l : Byte) (n : Nat) : State :=
  inFrame ([0x7E, h, l] ++ List.replicate n 0x37#8) .accPay (some (BitVec.ofNat 17 ((be16 h l).toNat + 4)))

/-- What is seen of a result: state, count, `expected_total` and the outputs. -/
def seen (r : Result State) : Option (RxState × Nat × Option Nat × List Output) :=
  match r with
  | .next s => some (s.rxState, s.count.toNat, s.expectedTotal.map BitVec.toNat, s.outbox)
  | .fault _ => none
  | .refused _ => none

/-- The reason of a refusal. -/
def whyRefused (r : Result State) : Option Refusal :=
  match r with
  | .next _ => none
  | .fault _ => none
  | .refused e => some e

/-- What decoding gives, if it gives an operation. -/
def decoded (st : RxState) (t : Transaction) : Option Instr := (decode st t).toOption

/-- Why decoding fails. -/
def whyUndecoded (st : RxState) (t : Transaction) : Option DecodeError :=
  match decode st t with
  | .ok _ => none
  | .error e => some e

/-! ### WellFormed: what each check refuses -/

theorem test_wf_verify_short : (Instr.verify [0x7E, 0x00, 0x00]).wf = false := by decide
theorem test_wf_verify_four : (Instr.verify [0x7E, 0x00, 0x00, 0xFF]).wf = true := by decide
theorem test_wf_frame_oversize : (Instr.frameTxReq 0x01 dest90 (List.replicate 83 0x37)).wf = false := by decide
theorem test_wf_frame_largest : (Instr.frameTxReq 0x01 dest90 (List.replicate 82 0x37)).wf = true := by decide
theorem test_wf_spurious_delimiter : (Instr.rxbSpurious 0x7E).wf = false := by decide
theorem test_config_capacity_bounds : 18 ≤ Config.capacity ∧ Config.capacity ≤ 65539 := by decide

/-! ### Decode: words written out from R49 and R51, transactions from R18 -/

theorem test_decode_start : decoded .idle (.line 0b01111110#8) = some .rxbStart := by decide
theorem test_decode_spurious : decoded .idle (.line 0b01111111#8) = some (.rxbSpurious 0x7F) := by decide
theorem test_decode_length : decoded .accLen (.line 0b01111110#8) = some (.rxbLength 0x7E) := by decide
theorem test_decode_body : decoded .accPay (.line 0b01111110#8) = some (.rxbBody 0x7E) := by decide
theorem test_decode_frame : decoded .idle (.wireFrame w90) = some (.frameTxReq 0x01 dest90 [0x39, 0x30]) := by decide
theorem test_decode_operations :
    decoded .accPay (.chkReq [0x10, 0x01]) = some (.chk [0x10, 0x01]) ∧
    decoded .idle (.encReq [0x39] [0x00, 0x13, 0xA2, 0x00, 0x42, 0x2D, 0xB5, 0xC4] 0x02) =
      some (.encode [0x39] dest90 0x02) ∧
    decoded .accPay (.rxByte 0x7E) = some (.rxByte 0x7E) ∧
    decoded .idle (.rxBlock [0x7E, 0x00]) = some (.rxBlock [0x7E, 0x00]) ∧
    decoded .accLen .rxTimeout = some .rxTimeout ∧
    decoded .accLen .reset = some .reset := by decide
theorem test_decode_checks :
    decoded .idle (.frameInVerify [0x7E, 0x00, 0x00, 0xFF]) = some (.verify [0x7E, 0x00, 0x00, 0xFF]) ∧
    decoded .idle (.frameInExtract []) = some (.extract []) ∧
    decoded .idle (.payloadIn [0x39, 0x30]) = some (.angle [0x39, 0x30]) ∧
    decoded .accPay (.rxDeliver 0xEB) = some (.rxDeliver 0xEB) := by decide

/-- R49: a wrong fixed byte, a wrong length field and a wrong checksum are rejected by name; so is a frame over
`CAPACITY` (R56). -/
theorem test_decode_frame_rejects :
    whyUndecoded .idle (.wireFrame (w90.set 3 0x90)) = some (.fixedByte 3) ∧
    whyUndecoded .idle (.wireFrame (w90.set 14 0xFF)) = some (.fixedByte 14) ∧
    whyUndecoded .idle (.wireFrame (w90.set 2 0x11)) = some .lengthField ∧
    whyUndecoded .idle (.wireFrame (w90.set 19 0xEA)) = some .checksumField ∧
    whyUndecoded .idle (.wireFrame (w90.take 17)) = some .frameShort ∧
    whyUndecoded .idle (.wireFrame (w90 ++ List.replicate 81 0x00)) = some .overCapacity := by decide
theorem test_decode_rejects :
    whyUndecoded .idle (.encReq [] (List.replicate 7 0x00) 0x01) = some .destinationLength ∧
    whyUndecoded .idle (.frameInVerify [0x7E, 0x00, 0x00]) = some .verifyTooShort ∧
    (decodeStream .idle []).toOption = none := by decide
theorem test_decode_stream :
    (decodeStream .idle [0x7E, 0x00]).toOption = some (.rxbStart, [0x00]) := by decide

/-- The frame with `n = 0` of 95_test_vectors.md section 2.2, as its words. -/
theorem test_encode_words :
    encode (.frameTxReq 0x01 dest90 []) = .wireFrame
      [0x7E, 0x00, 0x0E, 0x10, 0x01, 0x00, 0x13, 0xA2, 0x00, 0x42, 0x2D, 0xB5, 0xC4, 0xFF, 0xFE, 0x00, 0x00, 0x54] := by
  decide
theorem test_table_word : decodeTableWord 8 0x7E = some .rxbStart ∧ decodeTableWord 8 0x00 = some (.rxbSpurious 0x00) := by
  decide
theorem test_step_table_word :
    seen (step (State.reset.withFetchWord 8 0x7E)) = some (.accLen, 1, none, [.outcome .rxEvt .none]) := by decide

/-! ### Operations -/

theorem test_chk_empty : seen (exec (.chk []) State.reset) = some (.idle, 0, none, [.outcome .chkRsp (.checksum 0xFF)]) := by
  decide
theorem test_chk_wraps :
    seen (exec (.chk [0xFF, 0xFF]) State.reset) = some (.idle, 0, none, [.outcome .chkRsp (.checksum 0x01)]) := by decide

theorem test_encode_worked_example :
    seen (exec (.encode [0x39, 0x30] dest90 0x01) State.reset) =
      some (.idle, 0, none, [.outcome .encRsp (.encoded w90)]) := by decide
theorem test_encode_oversize :
    seen (exec (.encode (List.replicate 83 0x37) dest90 0x01) State.reset) =
      some (.idle, 0, none, [.outcome .encRsp .oversizePayload]) := by decide

set_option maxRecDepth 2000 in
/-- `expected_total = CAPACITY` completes; one more overflows (section 3). -/
theorem test_rxByte_completes_at_capacity :
    seen (exec (.rxByte 0x00) (inBody 0x00 0x60 96)) =
      some (.idle, 0, none,
        [.outcome .rxEvt (.complete ([0x7E, 0x00, 0x60] ++ List.replicate 96 0x37 ++ [0x00]))]) := by decide
theorem test_rxByte_overflows_past_capacity :
    seen (exec (.rxByte 0x00) (inBody 0x00 0x61 96)) = some (.idle, 0, none, [.outcome .rxEvt .overflow]) := by decide

theorem test_rxBlock_smallest_frame :
    seen (exec (.rxBlock [0x7E, 0x00, 0x00, 0xAA]) State.reset) =
      some (.idle, 0, none, [.outcome .rxEvt .none, .outcome .rxEvt .none, .outcome .rxEvt .none,
        .outcome .rxEvt (.complete [0x7E, 0x00, 0x00, 0xAA])]) := by decide
theorem test_rxBlock_delimiter_is_data :
    seen (exec (.rxBlock [0x7E, 0x7E, 0x7E]) State.reset) =
      some (.accPay, 3, some 32386, [.outcome .rxEvt .none, .outcome .rxEvt .none, .outcome .rxEvt .none]) := by decide

theorem test_rxTimeout_in_frame :
    seen (exec .rxTimeout (inBody 0x00 0x10 4)) = some (.idle, 0, none, [.outcome .rxEvt .idleTimeout]) := by decide
theorem test_rxTimeout_idle : seen (exec .rxTimeout State.reset) = some (.idle, 0, none, [.outcome .rxEvt .none]) := by
  decide

theorem test_reset_in_frame :
    seen (exec .reset (inBody 0x00 0x10 9)) = some (.idle, 0, none, [.outcome .caller .none]) := by decide

theorem test_verify_valid : seen (exec (.verify w90) State.reset) = some (.idle, 0, none, [.outcome .caller .valid]) := by
  decide
theorem test_verify_mismatch :
    seen (exec (.verify (w90Front ++ [0xEA])) State.reset) =
      some (.idle, 0, none, [.outcome .caller .checksumMismatch]) := by decide

/-- 17 bytes are one short of a header; fields before the payload are not looked at (section 2.5). -/
theorem test_extract_short :
    seen (exec (.extract (w90.take 17)) State.reset) = some (.idle, 0, none, [.outcome .caller .frameTooShort]) := by decide
theorem test_extract_other_type :
    seen (exec (.extract [0x7E, 0x00, 0x10, 0x90, 0x00, 0x00, 0x13, 0xA2, 0x00, 0x42, 0x2D, 0xB5, 0xC4, 0xFF, 0xFE, 0x01,
      0x00, 0x34, 0x35, 0x6B]) State.reset) = some (.idle, 0, none, [.outcome .caller (.payload [0x34, 0x35])]) := by decide

/-- 436 is 180 modulo 256 and is out of range; a leading zero is allowed (section 2.6). -/
theorem test_angle_not_truncated :
    seen (exec (.angle [0x34, 0x33, 0x36]) State.reset) =
      some (.idle, 0, none, [.outcome .caller .payloadOutOfRange]) := by decide
theorem test_angle_leading_zero :
    seen (exec (.angle [0x30, 0x39, 0x30]) State.reset) = some (.idle, 0, none, [.outcome .caller (.angle 90)]) := by decide

theorem test_rxDeliver_last_byte :
    seen (exec (.rxDeliver 0xEB) (inFrame w90Front .accPay (some 20))) =
      some (.idle, 0, none, [.applyPosition 90, .outcome .deliver (.angle 90)]) := by decide
/-- A 4-byte frame with a wrong checksum is a mismatch, not too short (R111). -/
theorem test_rxDeliver_checks_in_order :
    seen (exec (.rxDeliver 0x00) (inFrame [0x7E, 0x00, 0x00] .accPay (some 4))) =
      some (.idle, 0, none, [.outcome .deliver .checksumMismatch]) := by decide

theorem test_frame_delivers_90 :
    seen (exec (.frameTxReq 0x01 dest90 [0x39, 0x30]) State.reset) =
      some (.idle, 0, none, List.replicate 19 (.outcome .deliver .none) ++
        [.applyPosition 90, .outcome .deliver (.angle 90)]) := by decide

theorem test_rxbStart : seen (exec .rxbStart State.reset) = some (.accLen, 1, none, [.outcome .rxEvt .none]) := by decide
theorem test_rxbStart_refused_in_frame :
    whyRefused (exec .rxbStart (inFrame [0x7E] .accLen none)) = some (.classNotDecoded .start) := by decide
theorem test_rxbSpurious :
    seen (exec (.rxbSpurious 0x7D) State.reset) = some (.idle, 0, none, [.outcome .rxEvt .none]) := by decide
/-- The largest announcement does not wrap at 16 bits; the first length byte leaves the state. -/
theorem test_rxbLength_largest :
    seen (exec (.rxbLength 0xFF) (inFrame [0x7E, 0xFF] .accLen none)) =
      some (.accPay, 3, some 65539, [.outcome .rxEvt .none]) := by decide
theorem test_rxbLength_first :
    seen (exec (.rxbLength 0x7E) (inFrame [0x7E] .accLen none)) = some (.accLen, 2, none, [.outcome .rxEvt .none]) := by
  decide
theorem test_rxbBody_completes :
    seen (exec (.rxbBody 0xFF) (inFrame [0x7E, 0x00, 0x00] .accPay (some 4))) =
      some (.idle, 0, none, [.outcome .rxEvt (.complete [0x7E, 0x00, 0x00, 0xFF])]) := by decide
theorem test_rxbBody_accumulates :
    seen (exec (.rxbBody 0x30) (inFrame (w90.take 18) .accPay (some 20))) =
      some (.accPay, 19, some 20, [.outcome .rxEvt .none]) := by decide

theorem test_state_codes :
    stateOfCode (stateCode .accLen) = .accLen ∧ stateOfCode (stateCode .accPay) = .accPay ∧
    stateOfCode (stateCode .idle) = .idle ∧ stateOfCode 0b11#2 = .idle := by decide

/-! ### Witnesses: the hypotheses of each statement are met together -/

theorem witness_ByteClassesDecodeByState : (0x7D#8 : Byte) ≠ 0x7E#8 := by decide
theorem witness_StepRunsDecodedOperation :
    State.reset.pending = [] ∧
    decoded (State.reset.present [.rxByte 0x7E]).rxState (.rxByte 0x7E) = some (.rxByte 0x7E) ∧
    whyUndecoded (State.reset.present [.frameInVerify []]).rxState (.frameInVerify []) = some .verifyTooShort := by decide
theorem witness_DecodeOfEncode :
    (Instr.frameTxReq 0x01 dest90 (List.replicate 82 0x37)).wf = true ∧
    (Instr.frameTxReq 0x01 dest90 (List.replicate 82 0x37)).availableIn .idle = true ∧
    (Instr.rxbBody 0x7E).wf = true ∧ (Instr.rxbBody 0x7E).availableIn .accPay = true := by decide
theorem witness_EncodeOfDecode : decode .accPay (.line 0x7E) = .ok (.rxbBody 0x7E) := rfl
theorem witness_StepRunsTableWord : decodeTableWord 8 0x7E = some .rxbStart := by decide

theorem witness_Inv_idle : State.reset.Inv := by decide
theorem witness_Inv_one_byte : (inFrame [0x7E] .accLen none).Inv := by decide
theorem witness_Inv_two_bytes : (inFrame [0x7E, 0xFF] .accLen none).Inv := by decide
theorem witness_Inv_smallest_body : (inBody 0x00 0x00 0).Inv := by decide
theorem witness_Inv_full_completing : (inBody 0x00 0x60 96).Inv := by decide
theorem witness_Inv_full_overflowing : (inBody 0x00 0x61 96).Inv := by decide
theorem witness_Inv_almost_full : (inBody 0x00 0x61 95).Inv := by decide

theorem witness_StepKeepsAccumulatorRelations :
    ((inBody 0x00 0x00 0).present [.rxByte 0xFF]).Inv ∧
    ∃ t, step ((inBody 0x00 0x00 0).present [.rxByte 0xFF]) = .next t := ⟨by decide, _, rfl⟩
theorem witness_EveryOperationCompletes :
    (inBody 0x00 0x60 96).Inv ∧ (Instr.rxbBody 0x00).wf = true ∧
    (Instr.rxbBody 0x00).availableIn (inBody 0x00 0x60 96).rxState = true := ⟨witness_Inv_full_completing, by decide⟩

theorem witness_StepStopsOnlyOnUndecodable : (State.reset.present [.frameInVerify []]).Inv := by decide
theorem witness_ChkLaws : ([0x01#8, 0x02#8] : Bytes).Perm [0x02#8, 0x01#8] := by decide
theorem witness_VerifyComparesTrailingByte : 4 ≤ ([0x7E, 0x00, 0x00, 0xFF] : Bytes).length := by decide
theorem witness_VerifyRefusesShortInput : ([0x7E, 0x00, 0x00] : Bytes).length < 4 := by decide
theorem witness_SingleByteChangeDetected :
    4 ≤ w90.length ∧ 3 ≤ 19 ∧ 19 < w90.length ∧ w90[19]? ≠ some 0xEA#8 ∧
    EndsWith (exec (.verify w90) State.reset) State.reset .valid := ⟨by decide, by decide, by decide, by decide, .caller, rfl⟩
theorem witness_ExtractTakesPayload : (w90.take 17).length < 18 ∧ 18 ≤ (w90.take 18).length := by decide
theorem witness_AngleReadsDecimal :
    let p : Bytes := [0x31, 0x38, 0x30]
    p ≠ [] ∧ (∀ d ∈ p, 0x30 ≤ d.toNat ∧ d.toNat ≤ 0x39) ∧
    1 ≤ Nat.ofDigits 10 (p.reverse.map fun d => d.toNat - 0x30) ∧
    Nat.ofDigits 10 (p.reverse.map fun d => d.toNat - 0x30) ≤ 180 := by decide
theorem witness_AngleReadsDecimal_rejected :
    ¬ (1 ≤ Nat.ofDigits 10 ([0x31, 0x38, 0x31].map fun d => d - 0x30) ∧
      Nat.ofDigits 10 ([0x31, 0x38, 0x31].map fun d => d - 0x30) ≤ 180) ∧
    ¬ (([] : Bytes) ≠ []) ∧ ¬ (∀ d ∈ ([0x2D, 0x35] : Bytes), 0x30 ≤ d.toNat ∧ d.toNat ≤ 0x39) := by decide
theorem witness_AngleIgnoresLeadingZeros : ([0x39, 0x30] : Bytes) ≠ [] := by decide
theorem witness_EncodeBuildsTheWireFrame : (List.replicate 82 0x37#8).length + 18 ≤ 100 := by decide
theorem witness_EncodeFieldsByOffset : (List.replicate 82 0x37#8).length + 18 ≤ 100 := by decide
theorem witness_EncodeSucceedsIffItFits : 100 < (List.replicate 83 0x37#8).length + 18 := by decide

theorem witness_IdleByte : State.reset.Inv ∧ State.reset.rxState = .idle := by decide
theorem witness_LengthByte_first :
    (inFrame [0x7E] .accLen none).Inv ∧ (inFrame [0x7E] .accLen none).rxState = .accLen ∧
    (inFrame [0x7E] .accLen none).count.toNat = 1 := by decide
theorem witness_LengthByte_second :
    (inFrame [0x7E, 0xFF] .accLen none).Inv ∧ (inFrame [0x7E, 0xFF] .accLen none).rxState = .accLen ∧
    (inFrame [0x7E, 0xFF] .accLen none).count.toNat = 2 := by decide
theorem witness_BodyByteCompletes :
    (inBody 0x00 0x60 96).Inv ∧ (inBody 0x00 0x60 96).rxState = .accPay ∧
    (inBody 0x00 0x60 96).expectedTotal = some 100 ∧ (100#17).toNat ≤ (inBody 0x00 0x60 96).count.toNat + 1 :=
  ⟨witness_Inv_full_completing, by decide⟩
theorem witness_BodyByteOverflows :
    (inBody 0x00 0x61 96).Inv ∧ (inBody 0x00 0x61 96).rxState = .accPay ∧
    (inBody 0x00 0x61 96).expectedTotal = some 101 ∧ (inBody 0x00 0x61 96).count.toNat + 1 < (101#17).toNat ∧
    (inBody 0x00 0x61 96).count.toNat + 1 = 100 := ⟨witness_Inv_full_overflowing, by decide⟩
theorem witness_OverflowOnlyPastCapacity :
    (inBody 0x00 0x61 96).Inv ∧ (inBody 0x00 0x61 96).count.toNat = 99 ∧ 100 < (101#17).toNat :=
  ⟨witness_Inv_full_overflowing, by decide⟩
theorem witness_BodyByteAccumulates :
    (inBody 0x00 0x61 95).Inv ∧ (inBody 0x00 0x61 95).rxState = .accPay ∧
    (inBody 0x00 0x61 95).expectedTotal = some 101 ∧ (inBody 0x00 0x61 95).count.toNat + 1 < (101#17).toNat ∧
    (inBody 0x00 0x61 95).count.toNat + 1 < 100 := ⟨witness_Inv_almost_full, by decide⟩
theorem witness_ByteClassRefusedElsewhere :
    (inFrame [0x7E] .accLen none).rxState ≠ .idle ∧ State.reset.rxState ≠ .accLen ∧ State.reset.rxState ≠ .accPay := by
  decide
theorem witness_StateTransitionTable :
    (inBody 0x00 0x61 96).Inv ∧ (∃ t, exec (.rxByte 0x00) (inBody 0x00 0x61 96) = .next t) ∧
    (∃ t, exec .rxTimeout (inBody 0x00 0x61 96) = .next t) ∧ (∃ t, exec .reset (inBody 0x00 0x61 96) = .next t) ∧
    encoderSide (.chk []) = true ∧ ∃ t, exec (.chk []) (inBody 0x00 0x61 96) = .next t :=
  ⟨witness_Inv_full_overflowing, ⟨_, rfl⟩, ⟨_, rfl⟩, ⟨_, rfl⟩, rfl, _, rfl⟩
theorem witness_LengthReadIsBigEndian :
    3 ≤ (inBody 0x01 0x00 0).count.toNat ∧ (inBody 0x01 0x00 0).buf.read 1 = some 0x01#8 ∧
    (inBody 0x01 0x00 0).buf.read 2 = some 0x00#8 := by decide
theorem witness_RxBlockIsIteratedRxByte : (inBody 0x00 0x00 0).Inv := by decide
theorem witness_RxTimeoutDropsPartialFrame :
    (inFrame [0x7E] .accLen none).rxState ≠ .idle ∧ State.reset.rxState = .idle := by decide
theorem witness_CoincidentEventsOrdered : State.reset.pending = [] := by decide
theorem witness_RxDeliverChainsTheChecks : (inFrame w90Front .accPay (some 20)).Inv := by decide
theorem witness_WireFrameIsItsBytesDelivered : (inBody 0x00 0x00 0).Inv := by decide
theorem witness_ActuatorRequestsAreDeliveredAngles :
    ∃ t, step ((inFrame w90Front .accPay (some 20)).present [.rxDeliver 0xEB]) = .next t ∧ requested t.outbox = [90] :=
  ⟨_, rfl, by decide⟩

theorem witness_ExactlyOneOutcome :
    singleOutcome (.rxDeliver 0xEB) = true ∧ ∃ t, exec (.rxDeliver 0xEB) (inFrame w90Front .accPay (some 20)) = .next t :=
  ⟨rfl, _, rfl⟩
theorem witness_ErrorsAreRecoveredLocally :
    singleOutcome (.rxDeliver 0x00) = true ∧ singleOutcome (.encode (List.replicate 83 0x37) dest90 0x01) = true ∧
    (∃ t, exec (.rxDeliver 0x00) (inFrame [0x7E, 0x00, 0x00] .accPay (some 4)) = .next t ∧
      t.outbox = [] ++ [.outcome .deliver .checksumMismatch]) ∧
    ∃ t, exec (.encode (List.replicate 83 0x37) dest90 0x01) State.reset = .next t ∧
      t.outbox = [] ++ [.outcome .encRsp .oversizePayload] :=
  ⟨rfl, rfl, ⟨_, rfl, by decide⟩, _, rfl, by decide⟩
theorem witness_EncoderSideFrame :
    encoderSide (.verify w90) = true ∧ ∃ t, exec (.verify w90) State.reset = .next t := ⟨rfl, _, rfl⟩
theorem witness_EventFrame : ∃ t, exec .reset (inBody 0x00 0x10 9) = .next t := ⟨_, rfl⟩
theorem witness_OneByteFrame :
    (∃ t, exec (.rxByte 0xFF) (inBody 0x00 0x00 0) = .next t) ∧ rxStoreAddr 0xFF (inBody 0x00 0x00 0) = some 3 ∧
    rxStoreAddr 0x00 (inBody 0x00 0x60 96) = some 99 ∧ (∃ t, exec .rxbStart State.reset = .next t) ∧ rxStoreAddr 0x7E State.reset = some 0 ∧
    rxStoreAddr 0x7D State.reset = none := ⟨⟨_, rfl⟩, by decide, by decide, ⟨_, rfl⟩, by decide, by decide⟩
theorem witness_ManyBytesFrame :
    ∃ t u, exec (.rxBlock [0x7D, 0x7E]) State.reset = .next t ∧
      exec (.rxBlock (([0x7D, 0x7E] : Bytes).take 1)) State.reset = .next u ∧ rxStoreAddr 0x7E u = some 0 :=
  ⟨_, _, rfl, rfl, by decide⟩
/-- The bytes of `W90` are stored at 0 to 19 and none of them at 20. -/
theorem frame_stores_below_20 :
    (List.range 20).all (fun k => match exec (.rxBlock (w90.take k)) State.reset with
      | .next u => decide (rxStoreAddr (w90.getD k 0) u = some k)
      | _ => false) = true := by decide
theorem witness_ManyBytesFrame_frame :
    encodeFrame 0x01 dest90 [0x39, 0x30] = w90 ∧
    (∃ t, exec (.frameTxReq 0x01 dest90 [0x39, 0x30]) State.reset = .next t) ∧
    ∀ k b u, w90[k]? = some b → exec (.rxBlock (w90.take k)) State.reset = .next u → rxStoreAddr b u ≠ some 20 := by
  refine ⟨by decide, ⟨_, rfl⟩, fun k b u hb hu => ?_⟩
  have hk : k < 20 := (List.getElem?_eq_some_iff.1 hb).1
  have h := List.all_eq_true.1 frame_stores_below_20 k (List.mem_range.2 hk)
  simp only [hu, List.getD_eq_getElem?_getD, hb, Option.getD_some, decide_eq_true_eq] at h
  rw [h]
  simp only [ne_eq, Option.some.injEq]
  omega
theorem witness_ChannelsAreNotRead : ∃ t, exec (.rxByte 0x7E) State.reset = .next t := ⟨_, rfl⟩
theorem witness_EncoderAndReceiverCommute :
    encoderSide (.chk [0x01]) = true ∧ encoderSide (.rxByte 0x7E) = false ∧
    (∃ t, exec (.chk [0x01]) State.reset = .next t) ∧ ∃ u, exec (.rxByte 0x7E) State.reset = .next u :=
  ⟨rfl, rfl, ⟨_, rfl⟩, _, rfl⟩
/-- Two fresh receivers, one with an old byte in `buf`. -/
theorem witness_StaleBytesAreUnobservable :
    State.SameAccumulator State.reset { State.reset with buf := [(0, 0x55)] } ∧
    ∃ t, Sys2Proof.core.run 3 State.reset = .next t := ⟨by decide, _, rfl⟩

theorem witness_PayloadRoundTrip : (List.replicate 82 0x37#8).length ≤ 82 := by decide
theorem witness_EncodedFramesAreValid :
    exec (.encode [0x39, 0x30] dest90 0x01) State.reset = .next (State.reset.emit .encRsp (.encoded w90)) := by rfl
theorem witness_NoiseThenFrameIsReceived :
    State.reset.Fresh ∧ (∀ b ∈ ([0x00, 0xFF, 0x10, 0x7D, 0x7F] : Bytes), b ≠ 0x7E#8) ∧ ([0x39, 0x30] : Bytes).length ≤ 82 := by
  decide
theorem witness_OversizeFrameOverflows :
    let bytes : Bytes := [0x7E, 0x00, 0x61] ++ List.replicate 98 0x00
    State.reset.Fresh ∧ bytes[0]? = some 0x7E#8 ∧ bytes[1]? = some 0x00#8 ∧ bytes[2]? = some 0x61#8 ∧
    100 < (be16 0x00 0x61).toNat + 4 ∧ 100 ≤ bytes.length ∧ ∀ b ∈ bytes.drop 100, b ≠ 0x7E#8 := by decide
/-- Of `EmittedFramesAreLengthValidated` and `EmittedFramesReparse`. -/
theorem witness_EmittedFrames :
    (inFrame [0x7E, 0x00, 0x00] .accPay (some 4)).Inv ∧
    ∃ t, exec (.rxByte 0xFF) (inFrame [0x7E, 0x00, 0x00] .accPay (some 4)) = .next t ∧
      t.outbox = [] ++ [.outcome .rxEvt (.complete [0x7E, 0x00, 0x00, 0xFF])] ∧ State.reset.Fresh :=
  ⟨by decide, _, rfl, by decide, by decide⟩
theorem witness_FrameDeliversItsAngle :
    State.reset.Fresh ∧ ([0x31, 0x38, 0x30] : Bytes).length ≤ 82 ∧
    Nat.ofDigits 10 (([0x31, 0x38, 0x30] : Bytes).reverse.map fun d => d.toNat - 0x30) = 180 ∧
    EndsWith (exec (.angle [0x30]) State.reset) State.reset .payloadOutOfRange :=
  ⟨by decide, by decide, by decide, .caller, rfl⟩
theorem witness_EveryFrameEndsWithinCapacity :
    (inFrame [0x7E] .accLen none).Inv ∧ (inFrame [0x7E] .accLen none).rxState ≠ .idle ∧
    (inFrame [0x7E] .accLen none).count.toNat + (List.replicate 99 0x00#8).length = 100 := by decide

end Sys2Proof.Tests
end

/-! The waiting transactions and the outputs are the model's own record (log entries 1 and 3). What this part says of
every operation, built up from the shared operations: it keeps the waiting transactions, it appends to the outputs, and
what it does and appends depends on neither list (R8, R16). -/

namespace Sys2Proof.Machine

/-- The state with other waiting transactions and outputs in their place. -/
def State.withChannels (s : State) (q : List Transaction) (os : List Output) : State :=
  { s with pending := q, outbox := os }

/-- The operation keeps the waiting transactions, appends to the outputs, and reads neither. -/
def OnlyAppendsOutputs (op : State → Result State) : Prop :=
  ∀ s t, op s = .next t →
    ∃ new, t.outbox = s.outbox ++ new ∧ t.pending = s.pending ∧
      ∀ q os, op (s.withChannels q os) = .next (t.withChannels q (os ++ new))

namespace State

variable (s : State) (q : List Transaction) (os : List Output)

@[simp] theorem withChannels_count : (s.withChannels q os).count = s.count := rfl
@[simp] theorem withChannels_rxState : (s.withChannels q os).rxState = s.rxState := rfl
@[simp] theorem withChannels_expectedTotal : (s.withChannels q os).expectedTotal = s.expectedTotal := rfl
@[simp] theorem withChannels_readBytes (addr n : Nat) :
    (s.withChannels q os).readBytes addr n = s.readBytes addr n := rfl
@[simp] theorem withChannels_announcedTotal : (s.withChannels q os).announcedTotal = s.announcedTotal := rfl
theorem withChannels_cleared : (s.withChannels q os).cleared = s.cleared.withChannels q os := rfl

/-- The append does not read the channels. -/
theorem withChannels_append (b : Byte) :
    (s.withChannels q os).append b = andThen (s.append b) fun t => .next (t.withChannels q os) := by
  rw [append_eq, append_eq, withChannels_count]
  split <;> rfl

end State

/-! ### The receiver's step -/

section Arms

variable (b : Byte) (s : State) (q : List Transaction) (os : List Output)

theorem armStart_withChannels :
    armStart (s.withChannels q os) = andThen (armStart s) fun p => .next (p.1.withChannels q os, p.2) := by
  simp only [armStart, State.withChannels_cleared, State.withChannels_append, andThen_assoc]
  rfl

theorem armLength_withChannels :
    armLength b (s.withChannels q os) = andThen (armLength b s) fun p => .next (p.1.withChannels q os, p.2) := by
  simp only [armLength, State.withChannels_append, andThen_assoc, andThen_next]
  congr 1
  funext t
  simp only [State.withChannels_count, State.withChannels_announcedTotal]
  by_cases hend : t.count.toNat = Config.lenFieldEnd
  · simp only [hend, ↓reduceIte]
    cases t.announcedTotal <;> rfl
  · simp only [hend, ↓reduceIte]
    rfl

theorem armBody_withChannels :
    armBody b (s.withChannels q os) = andThen (armBody b s) fun p => .next (p.1.withChannels q os, p.2) := by
  simp only [armBody, State.withChannels_append, andThen_assoc, andThen_next]
  congr 1
  funext t
  simp only [State.withChannels_count, State.withChannels_expectedTotal, State.withChannels_readBytes]
  cases t.expectedTotal with
  | none => rfl
  | some e =>
    by_cases hcomplete : frameComplete t.count e
    · simp only [hcomplete, ↓reduceIte]
      cases t.readBytes 0 t.count.toNat <;> rfl
    · by_cases hfull : bufferFull t.count <;> simp only [hcomplete, hfull] <;> rfl

/-- The receiver's step does not read the channels, whether it answers next or faults. -/
theorem rxStep_withChannels :
    rxStep b (s.withChannels q os) = andThen (rxStep b s) fun p => .next (p.1.withChannels q os, p.2) := by
  unfold rxStep
  rw [State.withChannels_rxState]
  cases classify s.rxState b with
  | start => exact armStart_withChannels s q os
  | spurious => rfl
  | length => exact armLength_withChannels b s q os
  | body => exact armBody_withChannels b s q os

end Arms

/-! ### How operations that only append are put together -/

namespace OnlyAppendsOutputs

theorem refused (r : Refusal) : OnlyAppendsOutputs fun _ => .refused r := nofun

theorem emit (ch : OutChannel) (o : OpOutcome) : OnlyAppendsOutputs fun s => .next (s.emit ch o) := by
  rintro s _ ⟨⟩
  exact ⟨[.outcome ch o], rfl, rfl, fun _ _ => rfl⟩

theorem toIdle_emit (ch : OutChannel) (o : OpOutcome) : OnlyAppendsOutputs fun s => .next (s.toIdle.emit ch o) := by
  rintro s _ ⟨⟩
  exact ⟨[.outcome ch o], rfl, rfl, fun _ _ => rfl⟩

/-- A choice made by `state` alone. -/
theorem ite {c : RxState → Prop} [DecidablePred c] {f g : State → Result State} (hf : OnlyAppendsOutputs f)
    (hg : OnlyAppendsOutputs g) : OnlyAppendsOutputs fun s => if c s.rxState then f s else g s := by
  intro s t h
  by_cases hc : c s.rxState
  · simp only [State.withChannels_rxState, hc, ↓reduceIte] at h ⊢
    exact hf s t h
  · simp only [State.withChannels_rxState, hc, ↓reduceIte] at h ⊢
    exact hg s t h

/-- One byte after the other appends the outputs of the first and then those of the rest. -/
theorem feed {take : Byte → State → Result State} (htake : ∀ b, OnlyAppendsOutputs (take b)) (bs : Bytes) :
    OnlyAppendsOutputs (feed take bs) := by
  induction bs with
  | nil =>
    rintro s _ ⟨⟩
    exact ⟨[], by simp, rfl, fun q os => by simp⟩
  | cons b bs ih =>
    intro s t h
    obtain ⟨u, hu, ht⟩ := andThen_eq_next.1 h
    obtain ⟨new, hout, hpend, hsame⟩ := htake b s u hu
    obtain ⟨new', hout', hpend', hsame'⟩ := ih u t ht
    refine ⟨new ++ new', by rw [hout', hout, List.append_assoc], hpend'.trans hpend, fun q os => ?_⟩
    rw [feed_cons, hsame, andThen_next, hsame', List.append_assoc]

/-- The receiver's step leaves the channels alone, so with what is done to its outcome it only appends. -/
theorem rxStep_andThen (b : Byte) {use : State → OpOutcome → Result State}
    (huse : ∀ o, OnlyAppendsOutputs fun s => use s o) :
    OnlyAppendsOutputs fun s => andThen (rxStep b s) fun p => use p.1 p.2 := by
  intro s t h
  obtain ⟨⟨u, o⟩, hu, ht⟩ := andThen_eq_next.1 h
  obtain ⟨hpend, hout⟩ := rxStep_channels hu
  obtain ⟨new, hout', hpend', hsame⟩ := huse o u t ht
  refine ⟨new, hout'.trans (by rw [hout]), hpend'.trans hpend, fun q os => ?_⟩
  simp only [rxStep_withChannels, hu, andThen_next]
  exact hsame q os

/-- A byte class does what `RX_BYTE` does or is refused, by `state` alone (R51). -/
theorem whenClass {c : ByteClass} {b : Byte} {arm : State → Result (State × OpOutcome)}
    (harm : ∀ s, classify s.rxState b = c → rxStep b s = arm s) :
    OnlyAppendsOutputs fun s => whenClass c b s (arm s) := by
  have hrun : (fun s => Machine.whenClass c b s (arm s)) =
      fun s => if classify s.rxState b = c then reportRx (rxStep b s) else .refused (.classNotDecoded c) := by
    funext s
    unfold Machine.whenClass
    split
    · next hc => rw [harm s hc]
    · rfl
  rw [hrun]
  exact ite (c := fun st => classify st b = c) (rxStep_andThen b fun o => emit .rxEvt o) (refused _)

end OnlyAppendsOutputs

/-! ### The operations -/

theorem execRxByte_onlyAppendsOutputs (b : Byte) : OnlyAppendsOutputs (execRxByte b) :=
  .rxStep_andThen b fun o => .emit .rxEvt o

theorem execRxTimeout_onlyAppendsOutputs : OnlyAppendsOutputs execRxTimeout :=
  .ite (c := fun st => st ≠ .idle) (.toIdle_emit .rxEvt .idleTimeout) (.emit .rxEvt .none)

theorem execVerify_onlyAppendsOutputs (f : Bytes) : OnlyAppendsOutputs (execVerify f) := by
  unfold execVerify
  by_cases hlen : f.length < Config.lenAdjust
  · simp only [if_pos hlen]
    exact .refused _
  · simp only [if_neg hlen]
    exact .emit _ _

theorem execExtract_onlyAppendsOutputs (f : Bytes) : OnlyAppendsOutputs (execExtract f) := by
  unfold execExtract
  cases payloadOf f with
  | none => exact .emit _ _
  | some p => exact .emit _ _

theorem execAngle_onlyAppendsOutputs (p : Bytes) : OnlyAppendsOutputs (execAngle p) := by
  unfold execAngle
  cases angleOf p with
  | none => exact .emit _ _
  | some a => exact .emit _ _

/-- An angle appends two outputs, the request and the outcome; every other verdict appends one (R110). -/
theorem deliverVerdict_onlyAppendsOutputs (o : OpOutcome) :
    OnlyAppendsOutputs fun s => .next (s.deliverVerdict o) := by
  cases o with
  | angle a =>
    rintro s _ ⟨⟩
    refine ⟨[.applyPosition a, .outcome .deliver (.angle a)], ?_, rfl, fun q os => ?_⟩ <;>
      simp [State.deliverVerdict, State.emit, State.requestPosition, State.withChannels]
  | _ => exact .emit .deliver _

theorem judge_onlyAppendsOutputs (o : OpOutcome) : OnlyAppendsOutputs fun s => judge s o := by
  cases o with
  | complete f =>
    simp only [judge]
    by_cases hlen : f.length < Config.lenAdjust
    · simp only [if_pos hlen]
      exact .refused _
    · simp only [if_neg hlen]
      exact deliverVerdict_onlyAppendsOutputs _
  | _ => exact .emit .deliver _

theorem deliverByte_onlyAppendsOutputs (b : Byte) : OnlyAppendsOutputs (deliverByte b) :=
  .rxStep_andThen b judge_onlyAppendsOutputs

theorem exec_onlyAppendsOutputs (i : Instr) : OnlyAppendsOutputs (exec i) := by
  cases i with
  | chk s => exact .emit _ _
  | encode payload dest frameId => exact .emit _ _
  | rxByte b => exact execRxByte_onlyAppendsOutputs b
  | rxBlock bytes => exact .feed execRxByte_onlyAppendsOutputs bytes
  | rxTimeout => exact execRxTimeout_onlyAppendsOutputs
  | reset => exact .toIdle_emit _ _
  | verify f => exact execVerify_onlyAppendsOutputs f
  | extract f => exact execExtract_onlyAppendsOutputs f
  | angle p => exact execAngle_onlyAppendsOutputs p
  | rxDeliver b => exact deliverByte_onlyAppendsOutputs b
  | frameTxReq frameId dest payload => exact .feed deliverByte_onlyAppendsOutputs _
  | rxbStart => exact .whenClass fun s hc => by simp only [rxStep, hc]
  | rxbSpurious b => exact .whenClass fun s hc => by simp only [rxStep, hc]
  | rxbLength b => exact .whenClass fun s hc => by simp only [rxStep, hc]
  | rxbBody b => exact .whenClass fun s hc => by simp only [rxStep, hc]

/-- Settles O49: every operation is put together from parts that only append outputs and read neither list. -/
theorem channelsAreNotRead : Obligations.ChannelsAreNotRead :=
  exec_onlyAppendsOutputs

end Sys2Proof.Machine

/-! What one operation can do, said once: it keeps the accumulator, empties it or takes one byte into it, and then ends
with one outcome (R17). The invariant of the accumulator (R14) and the count of outcomes are read off from that. -/

namespace Sys2Proof.Machine

/-! ### What one operation can do -/

/-- How an operation with a single outcome may leave the accumulator: as it was, empty, or after one receiver step. -/
inductive AccumulatorStep (s : State) : State → Prop
  | kept : AccumulatorStep s s
  | emptied : AccumulatorStep s s.toIdle
  | byte {b : Byte} {u : State} {o : OpOutcome} (h : rxStep b s = .next (u, o)) : AccumulatorStep s u

/-- `t` is `u` with one allowed outcome handed out, an angle possibly after its request (R17, R112). -/
inductive EndsOnce (may : OpOutcome → Prop) (u : State) : State → Prop
  | outcome (ch : OutChannel) {o : OpOutcome} (ho : may o) : EndsOnce may u (u.emit ch o)
  | requested (ch : OutChannel) {a : Byte} (ha : may (.angle a)) :
      EndsOnce may u ((u.requestPosition a).emit ch (.angle a))

/-- The whole of an operation with a single outcome: a step of the accumulator, then the outcome. -/
def StepsThenEnds (may : OpOutcome → Prop) (s t : State) : Prop :=
  ∃ u, AccumulatorStep s u ∧ EndsOnce may u t

theorem AccumulatorStep.outbox_eq {s u : State} (h : AccumulatorStep s u) : u.outbox = s.outbox := by
  cases h with
  | kept => rfl
  | emptied => rfl
  | byte h => exact (rxStep_channels h).2

theorem EndsOnce.outbox_eq {may : OpOutcome → Prop} {u t : State} (h : EndsOnce may u t) :
    ∃ ch o, may o ∧
      (t.outbox = u.outbox ++ [.outcome ch o] ∨
        ∃ a, o = .angle a ∧ t.outbox = u.outbox ++ [.applyPosition a, .outcome ch o]) := by
  cases h with
  | outcome ch ho => exact ⟨ch, _, ho, .inl rfl⟩
  | requested ch ha => exact ⟨ch, _, ha, .inr ⟨_, rfl, by simp⟩⟩

/-- The outcomes of a receiver step; only a body byte has another than `None` (R82 to R86). -/
theorem rxStep_outcome {b : Byte} {s u : State} {o : OpOutcome} (h : rxStep b s = .next (u, o)) :
    (o = .none ∨ (∃ f, o = .complete f) ∨ o = .overflow) ∧ (s.rxState ≠ .accPay → o = .none) := by
  obtain ⟨-, -, -, ho⟩ | ⟨-, -, -, ho⟩ | ⟨-, -, -, -, ho⟩ | ⟨-, -, e, -, -, ho⟩ | ⟨hs, -, e, f, -, -, -, -, ho⟩ |
    ⟨hs, -, e, -, -, -, ho⟩ | ⟨-, -, e, -, -, -, ho⟩ := rxStep_cases h <;> simp [*]

/-- A reported receiver step ends with the step's outcome. -/
theorem reportRx_stepsThenEnds {may : OpOutcome → Prop} {b : Byte} {s t : State}
    (hmay : ∀ u o, rxStep b s = .next (u, o) → may o) (h : reportRx (rxStep b s) = .next t) :
    StepsThenEnds may s t := by
  obtain ⟨u, o, hu, rfl⟩ := reportRx_eq_next.1 h
  exact ⟨u, .byte hu, .outcome _ (hmay u o hu)⟩

/-- A byte class that answers next is `RX_BYTE` in the state of that class (R51, R80). -/
theorem whenClass_eq_next {c : ByteClass} {b : Byte} {s t : State} {r : Result (State × OpOutcome)} :
    whenClass c b s r = .next t ↔ classify s.rxState b = c ∧ reportRx r = .next t := by
  unfold whenClass
  split <;> simp [*]

/-- The receiver is in `AccPay` exactly when it takes a byte as a body byte (R51). -/
theorem classify_eq_body {st : RxState} {b : Byte} : classify st b = .body ↔ st = .accPay := by
  cases st with
  | idle => by_cases hb : b = Config.startDelim <;> simp [classify, hb]
  | accLen => simp [classify]
  | accPay => simp [classify]

/-- A byte class other than `RXB.BODY` ends with `None`. -/
theorem whenClass_stepsThenEnds {c : ByteClass} {b : Byte} {s t : State} {arm : Result (State × OpOutcome)}
    (hc : c ≠ .body) (harm : classify s.rxState b = c → rxStep b s = arm) (h : whenClass c b s arm = .next t) :
    StepsThenEnds (· = .none) s t := by
  obtain ⟨hclass, h⟩ := whenClass_eq_next.1 h
  rw [← harm hclass] at h
  exact reportRx_stepsThenEnds (fun u o hu => (rxStep_outcome hu).2 (classify_eq_body.not.1 (hclass ▸ hc))) h

/-- The whole receive path hands out `None`, `Overflow` or the verdict on the frame (R110, R111). -/
theorem deliverByte_stepsThenEnds {b : Byte} {s t : State} (h : deliverByte b s = .next t) :
    StepsThenEnds (mayEndWith (.rxDeliver b)) s t := by
  obtain ⟨⟨u, o⟩, hu, h⟩ := andThen_eq_next.1 h
  refine ⟨u, .byte hu, ?_⟩
  obtain rfl | ⟨f, rfl⟩ | rfl := (rxStep_outcome hu).1
  · cases h
    exact .outcome _ (by simp [mayEndWith])
  · simp only [judge] at h
    split at h
    · cases h
    · cases h
      obtain hv | hv | hv | ⟨p, a, -, -, hv⟩ := frameVerdict_cases f <;> rw [hv]
      · exact .outcome _ (by simp [mayEndWith])
      · exact .outcome _ (by simp [mayEndWith])
      · exact .outcome _ (by simp [mayEndWith])
      · exact .requested _ (by simp [mayEndWith])
  · cases h
    exact .outcome _ (by simp [mayEndWith])

theorem encodeOutcome_mayEnd (payload : Bytes) (dest : Dest) (frameId : Byte) :
    mayEndWith (.encode payload dest frameId) (encodeOutcome payload dest frameId) := by
  unfold encodeOutcome
  split
  · exact .inr rfl
  · exact .inl ⟨_, rfl⟩

theorem execVerify_stepsThenEnds {f : Bytes} {s t : State} (h : execVerify f s = .next t) :
    StepsThenEnds (mayEndWith (.verify f)) s t := by
  unfold execVerify at h
  split at h
  · cases h
  · cases h
    exact ⟨s, .kept, .outcome _ (by cases checksumOk f <;> simp [mayEndWith])⟩

theorem execExtract_stepsThenEnds {f : Bytes} {s t : State} (h : execExtract f s = .next t) :
    StepsThenEnds (mayEndWith (.extract f)) s t := by
  unfold execExtract at h
  split at h
  · cases h
    exact ⟨s, .kept, .outcome _ (.inr rfl)⟩
  · cases h
    exact ⟨s, .kept, .outcome _ (.inl ⟨_, rfl⟩)⟩

theorem execAngle_stepsThenEnds {p : Bytes} {s t : State} (h : execAngle p s = .next t) :
    StepsThenEnds (mayEndWith (.angle p)) s t := by
  unfold execAngle at h
  split at h
  · cases h
    exact ⟨s, .kept, .outcome _ (.inr rfl)⟩
  · cases h
    exact ⟨s, .kept, .outcome _ (.inl ⟨_, rfl⟩)⟩

theorem execRxTimeout_stepsThenEnds {s t : State} (h : execRxTimeout s = .next t) :
    StepsThenEnds (mayEndWith .rxTimeout) s t := by
  unfold execRxTimeout at h
  split at h
  · cases h
    exact ⟨_, .emptied, .outcome _ (.inr rfl)⟩
  · cases h
    exact ⟨s, .kept, .outcome _ (.inl rfl)⟩

/-- Everything an operation with a single outcome can do when it answers next. -/
theorem exec_stepsThenEnds {i : Instr} {s t : State} (hi : singleOutcome i = true) (h : exec i s = .next t) :
    StepsThenEnds (mayEndWith i) s t := by
  cases i with
  | chk bytes => cases h; exact ⟨s, .kept, .outcome _ ⟨_, rfl⟩⟩
  | encode payload dest frameId => cases h; exact ⟨s, .kept, .outcome _ (encodeOutcome_mayEnd _ _ _)⟩
  | rxByte b => exact reportRx_stepsThenEnds (fun u o hu => (rxStep_outcome hu).1) h
  | rxBlock bytes => cases hi
  | rxTimeout => exact execRxTimeout_stepsThenEnds h
  | reset => cases h; exact ⟨_, .emptied, .outcome _ rfl⟩
  | verify f => exact execVerify_stepsThenEnds h
  | extract f => exact execExtract_stepsThenEnds h
  | angle p => exact execAngle_stepsThenEnds h
  | rxDeliver b => exact deliverByte_stepsThenEnds h
  | frameTxReq frameId dest payload => cases hi
  | rxbStart => exact whenClass_stepsThenEnds (c := .start) nofun (fun hc => by simp only [rxStep, hc]) h
  | rxbSpurious b => exact whenClass_stepsThenEnds (c := .spurious) nofun (fun hc => by simp only [rxStep, hc]) h
  | rxbLength b => exact whenClass_stepsThenEnds (c := .length) nofun (fun hc => by simp only [rxStep, hc]) h
  | rxbBody b =>
    obtain ⟨hc, h⟩ := whenClass_eq_next.1 h
    exact reportRx_stepsThenEnds (b := b) (fun u o hu => (rxStep_outcome hu).1) (by simpa only [rxStep, hc] using h)

/-- Settles O42: an operation steps the accumulator, which leaves the outputs alone, and then ends once. -/
theorem exactlyOneOutcome : Obligations.ExactlyOneOutcome := by
  intro i s t hi h
  obtain ⟨u, hu, ht⟩ := exec_stepsThenEnds hi h
  rw [← hu.outbox_eq]
  exact ht.outbox_eq

/-! ### The invariant of the accumulator -/

/-- An empty accumulator in `Idle` meets the invariant when its memory does. -/
theorem State.Fresh.inv {s : State} (hs : s.Fresh) (hwf : s.buf.wf = true) (hspace : s.buf.inSpace = true) : s.Inv := by
  obtain ⟨hst, hcount, htotal⟩ := hs
  refine ⟨hwf, hspace, ?_, fun _ => ⟨hcount, htotal⟩, ?_, ?_⟩ <;> simp [State.Written, hst, hcount]

/-- The append leaves the bytes before the count as they are. -/
theorem read_appended_of_lt {s : State} {a : Nat} (ha : a < s.count.toNat) (b : Byte) :
    (s.appended b).buf.read a = s.buf.read a :=
  Memory.read_write_other _ b (by omega)

/-- The append keeps the architectural part of `buf` written. -/
theorem written_appended {s : State} (hw : s.Written) (hc : s.count.toNat < Config.capacity) (b : Byte) :
    (s.appended b).Written := by
  intro a ha
  rw [State.appended_count, count_succ_toNat hc] at ha
  rw [State.appended_buf, Memory.read_write]
  split
  · rfl
  · exact hw a (by omega)

/-- The append of a body byte leaves the announced total, which is read from the two length bytes. -/
theorem announcedTotal_appended {s : State} (h3 : 3 ≤ s.count.toNat) (hc : s.count.toNat < Config.capacity) (b : Byte) :
    (s.appended b).announcedTotal = s.announcedTotal := by
  have hread : (s.appended b).readBytes 1 2 = s.readBytes 1 2 := by
    simp only [State.readBytes, State.appended_count, count_succ_toNat hc]
    rw [if_pos (by omega), if_pos (by omega)]
    exact Memory.readRange_congr fun k hk => read_appended_of_lt (by omega) b
  simp only [State.announcedTotal, State.memRead, hread]

/-- The announced total is at least 4 (R47). -/
theorem lenAdjust_le_of_announcedTotal {s : State} {e : BitVec 17} (h : s.announcedTotal = some e) :
    Config.lenAdjust ≤ e.toNat := by
  unfold State.announcedTotal State.memRead at h
  cases hr : s.readBytes 1 2 with
  | none => simp [hr] at h
  | some bs =>
    obtain ⟨-, hlen, -⟩ := readBytes_eq_some.1 hr
    obtain ⟨x, y, rfl⟩ := List.length_eq_two.1 hlen
    simp only [hr, Option.map_some, Option.some.injEq, bigEndian_pair] at h
    rw [← h, announcedTotal_toNat]
    exact Nat.le_add_left _ _

/-- The receiver's step keeps the relations of R14, row by row of R89. -/
theorem rxStep_keeps_inv {b : Byte} {s t : State} {o : OpOutcome} (hs : s.Inv) (h : rxStep b s = .next (t, o)) :
    t.Inv := by
  obtain ⟨hwf, hspace, hwritten, hidle, hlen, hpay⟩ := hs
  have hwf' (a : Nat) (c : Byte) : (s.buf.write a c).wf = true := Memory.wf_write hwf a c
  have hspace' {a : Nat} (ha : a < Config.capacity) (c : Byte) : (s.buf.write a c).inSpace = true :=
    Memory.inSpace_write hspace ha c
  obtain ⟨hst, -, rfl, -⟩ | ⟨hst, -, rfl, -⟩ | ⟨hst, hc, hend, rfl, -⟩ | ⟨hst, hend, e, he, rfl, -⟩ |
    ⟨hst, hc, e, f, -, -, -, rfl, -⟩ | ⟨hst, hc, e, -, -, rfl, -⟩ | ⟨hst, hc, e, he, hlt, rfl, -⟩ := rxStep_cases h
  · -- the delimiter, stored at 0
    exact ⟨hwf' _ _, hspace' (by simp) _, written_appended (s := s.cleared) nofun (by simp) _, nofun,
      fun _ => by simp, nofun⟩
  · exact State.Fresh.inv ⟨hst, rfl, rfl⟩ hwf hspace
  · -- the second byte of a frame
    obtain ⟨h1, h2, h0, htotal⟩ := hlen hst
    simp only [Config.lenFieldEnd] at hend
    refine ⟨hwf' _ _, hspace' hc _, written_appended hwritten hc b, by simp [hst], fun _ => ?_, by simp [hst]⟩
    rw [State.appended_count, count_succ_toNat hc, read_appended_of_lt (by omega)]
    exact ⟨by omega, by omega, h0, htotal⟩
  · -- the third byte announces the total
    obtain ⟨h1, h2, h0, htotal⟩ := hlen hst
    have hc : s.count.toNat < Config.capacity := by simp only [Config.capacity]; omega
    have h4 := lenAdjust_le_of_announcedTotal he
    refine ⟨hwf' _ _, hspace' hc _, written_appended hwritten hc b, nofun, nofun, fun _ => ?_⟩
    simp only [Config.lenFieldEnd, Config.lenAdjust, Config.capacity] at hend h4 ⊢
    simp only [State.appended_count, count_succ_toNat hc]
    exact ⟨by omega, by omega, (read_appended_of_lt (by omega) b).trans h0, he.symm, by simp; omega⟩
  · exact (State.toIdle_fresh _).inv (hwf' _ _) (hspace' hc _)
  · exact (State.toIdle_fresh _).inv (hwf' _ _) (hspace' (by omega) _)
  · -- a body byte that stays in the buffer
    obtain ⟨h3, -, h0, htotal, -⟩ := hpay hst
    have hc' : s.count.toNat < Config.capacity := by omega
    refine ⟨hwf' _ _, hspace' hc' _, written_appended hwritten hc' b, by simp [hst], by simp [hst], fun _ => ?_⟩
    rw [State.appended_count, count_succ_toNat hc', read_appended_of_lt (by omega), announcedTotal_appended h3 hc',
      State.appended_expectedTotal]
    exact ⟨by omega, by omega, h0, htotal, by simp [he]; omega⟩

theorem AccumulatorStep.keeps_inv {s u : State} (h : AccumulatorStep s u) (hs : s.Inv) : u.Inv := by
  cases h with
  | kept => exact hs
  | emptied =>
    obtain ⟨hwf, hspace, -⟩ := hs
    exact s.toIdle_fresh.inv hwf hspace
  | byte h => exact rxStep_keeps_inv hs h

theorem EndsOnce.keeps_inv {may : OpOutcome → Prop} {u t : State} (h : EndsOnce may u t) (hu : u.Inv) : t.Inv := by
  cases h with
  | outcome ch ho => exact hu
  | requested ch ha => exact hu

theorem exec_keeps_inv_of_singleOutcome {i : Instr} {s t : State} (hi : singleOutcome i = true) (hs : s.Inv)
    (h : exec i s = .next t) : t.Inv := by
  obtain ⟨u, hu, ht⟩ := exec_stepsThenEnds hi h
  exact ht.keeps_inv (hu.keeps_inv hs)

/-- Every operation keeps the invariant; the two that stand for one operation per byte do, since each of their bytes
does. -/
theorem exec_keeps_inv {i : Instr} {s t : State} (hs : s.Inv) (h : exec i s = .next t) : t.Inv := by
  cases hi : singleOutcome i with
  | true => exact exec_keeps_inv_of_singleOutcome hi hs h
  | false =>
    cases i with
    | rxBlock bytes =>
      exact feed_keeps (fun b u v hu hv => exec_keeps_inv_of_singleOutcome (i := .rxByte b) rfl hu hv) hs h
    | frameTxReq frameId dest payload =>
      exact feed_keeps (fun b u v hu hv => exec_keeps_inv_of_singleOutcome (i := .rxDeliver b) rfl hu hv) hs h
    | _ => cases hi

/-! ### The step -/

theorem step_of_no_pending {s : State} (h : s.pending = []) : step s = .next s := by
  simp only [step, h]

theorem step_of_decode_ok {s : State} {t : Transaction} {rest : List Transaction} {i : Instr}
    (hp : s.pending = t :: rest) (hd : decode s.rxState t = .ok i) : step s = exec i { s with pending := rest } := by
  simp only [step, hp, hd]

theorem step_of_decode_error {s : State} {t : Transaction} {rest : List Transaction} {e : DecodeError}
    (hp : s.pending = t :: rest) (hd : decode s.rxState t = .error e) : step s = .refused (.undecodable e) := by
  simp only [step, hp, hd]

/-- Settles O3: the step's equation for each of its three cases. -/
theorem stepRunsDecodedOperation : Obligations.StepRunsDecodedOperation :=
  fun _ => ⟨step_of_no_pending, fun _ _ _ => step_of_decode_ok, fun _ _ _ => step_of_decode_error⟩

/-- Settles O10: the step runs an operation, which keeps the invariant, and the queue is no part of it. -/
theorem stepKeepsAccumulatorRelations : Obligations.StepKeepsAccumulatorRelations := by
  intro s t hs h
  cases hp : s.pending with
  | nil =>
    rw [step_of_no_pending hp] at h
    cases h
    exact hs
  | cons x rest =>
    cases hd : decode s.rxState x with
    | ok i =>
      rw [step_of_decode_ok hp hd] at h
      exact exec_keeps_inv (s := { s with pending := rest }) hs h
    | error e =>
      rw [step_of_decode_error hp hd] at h
      cases h

/-! ### Reset -/

/-- Settles O7: reset leaves a fresh receiver. -/
theorem resetValues : Obligations.ResetValues := ⟨rfl, rfl, rfl⟩

/-- Settles O8: the three lists of the state are empty after reset. -/
theorem resetListsNothing : Obligations.ResetListsNothing := ⟨fun _ => rfl, rfl, rfl⟩

/-- Settles O9: reset is a fresh receiver over an empty memory. -/
theorem resetMeetsAccumulatorRelations : Obligations.ResetMeetsAccumulatorRelations :=
  State.Fresh.inv resetValues Memory.wf_reset rfl

end Sys2Proof.Machine

/-! Bytes of `buf` at or above the count are never seen (R11, R24): states that agree on the architectural part of the
accumulator and on the channels run in lockstep, through faults and refusals too. -/

namespace Sys2Proof.Machine

/-- Two results of the same kind: next values that are related, the same fault, or the same refusal. -/
inductive Lockstep {α : Type} (R : α → α → Prop) : Result α → Result α → Prop
  | next {a a' : α} (h : R a a') : Lockstep R (.next a) (.next a')
  | fault (e : Fault) : Lockstep R (.fault e) (.fault e)
  | refused (e : Refusal) : Lockstep R (.refused e) (.refused e)

/-- States that differ at most in the bytes of `buf` outside `buf[0 .. count-1]`. -/
structure Alike (s s' : State) : Prop where
  accumulator : s.SameAccumulator s'
  pending : s.pending = s'.pending
  outbox : s.outbox = s'.outbox

/-- Receiver steps with states that are alike and the same outcome. -/
def AlikeWithOutcome (p p' : State × OpOutcome) : Prop := Alike p.1 p'.1 ∧ p.2 = p'.2

/-- What follows related results in lockstep is in lockstep. -/
theorem Lockstep.andThen {α β : Type} {R : α → α → Prop} {S : β → β → Prop} {r r' : Result α} {f f' : α → Result β}
    (h : Lockstep R r r') (hf : ∀ a a', R a a' → Lockstep S (f a) (f' a')) :
    Lockstep S (Machine.andThen r f) (Machine.andThen r' f') := by
  cases h with
  | next h => exact hf _ _ h
  | fault e => exact .fault e
  | refused e => exact .refused e

/-! ### The updates of the state -/

namespace Alike

variable {s s' : State} (h : Alike s s')
include h

theorem rxState_eq : s.rxState = s'.rxState := h.accumulator.1
theorem count_eq : s.count = s'.count := h.accumulator.2.1
theorem expectedTotal_eq : s.expectedTotal = s'.expectedTotal := h.accumulator.2.2.1
theorem read_eq {a : Nat} (ha : a < s.count.toNat) : s.buf.read a = s'.buf.read a := h.accumulator.2.2.2 a ha

/-- The registers that a receiver step writes may be set alike. -/
theorem setRegisters (st : RxState) (e : Option (BitVec 17)) :
    Alike { s with rxState := st, expectedTotal := e } { s' with rxState := st, expectedTotal := e } :=
  ⟨⟨rfl, h.count_eq, rfl, fun _ => h.read_eq⟩, h.pending, h.outbox⟩

theorem setRxState (st : RxState) : Alike { s with rxState := st } { s' with rxState := st } :=
  ⟨⟨rfl, h.count_eq, h.expectedTotal_eq, fun _ => h.read_eq⟩, h.pending, h.outbox⟩

theorem setPending (q : List Transaction) : Alike { s with pending := q } { s' with pending := q } :=
  ⟨h.accumulator, rfl, h.outbox⟩

theorem emit (ch : OutChannel) (o : OpOutcome) : Alike (s.emit ch o) (s'.emit ch o) :=
  ⟨h.accumulator, h.pending, by simp [h.outbox]⟩

theorem requestPosition (a : Byte) : Alike (s.requestPosition a) (s'.requestPosition a) :=
  ⟨h.accumulator, h.pending, by simp [h.outbox]⟩

/-- A cleared accumulator has no architectural byte, so nothing is left to agree on. -/
theorem cleared : Alike s.cleared s'.cleared :=
  ⟨⟨h.rxState_eq, rfl, rfl, nofun⟩, h.pending, h.outbox⟩

theorem toIdle : Alike s.toIdle s'.toIdle :=
  ⟨⟨rfl, rfl, rfl, nofun⟩, h.pending, h.outbox⟩

/-- The appended byte is the one new architectural byte, and it is written on both sides. -/
theorem appended (hc : s.count.toNat < Config.capacity) (b : Byte) : Alike (s.appended b) (s'.appended b) := by
  refine ⟨⟨h.rxState_eq, by simp [h.count_eq], h.expectedTotal_eq, fun a ha => ?_⟩, h.pending, h.outbox⟩
  rw [State.appended_count, count_succ_toNat hc] at ha
  simp only [State.appended_buf, Memory.read_write, ← h.count_eq]
  split
  · rfl
  · exact h.read_eq (by omega)

theorem append (b : Byte) : Lockstep Alike (s.append b) (s'.append b) := by
  rw [append_eq, append_eq, ← h.count_eq]
  split
  · next hc => exact .next (h.appended hc b)
  · exact .fault _

theorem deliverVerdict (o : OpOutcome) : Alike (s.deliverVerdict o) (s'.deliverVerdict o) := by
  cases o with
  | angle a => exact (h.requestPosition a).emit _ _
  | _ => exact h.emit _ _

/-! ### The reads -/

theorem readBytes_eq (addr n : Nat) : s.readBytes addr n = s'.readBytes addr n := by
  unfold State.readBytes
  rw [← h.count_eq]
  split
  · exact Memory.readRange_congr fun k hk => h.read_eq (by omega)
  · rfl

theorem announcedTotal_eq : s.announcedTotal = s'.announcedTotal := by
  simp only [State.announcedTotal, State.memRead, h.readBytes_eq]

/-! ### The receiver's step -/

theorem armStart : Lockstep AlikeWithOutcome (armStart s) (armStart s') :=
  (h.cleared.append _).andThen fun _ _ ht => .next ⟨ht.setRxState _, rfl⟩

theorem armLength (b : Byte) : Lockstep AlikeWithOutcome (armLength b s) (armLength b s') := by
  refine (h.append b).andThen fun t t' ht => ?_
  by_cases hend : t.count.toNat = Config.lenFieldEnd
  · rw [if_pos hend, if_pos (ht.count_eq ▸ hend), ← ht.announcedTotal_eq]
    cases t.announcedTotal with
    | none => exact .fault _
    | some e => exact .next ⟨ht.setRegisters _ _, rfl⟩
  · rw [if_neg hend, if_neg (ht.count_eq ▸ hend)]
    exact .next ⟨ht, rfl⟩

theorem armBody (b : Byte) : Lockstep AlikeWithOutcome (armBody b s) (armBody b s') := by
  refine (h.append b).andThen fun t t' ht => ?_
  rw [← ht.count_eq, ← ht.expectedTotal_eq, ← ht.readBytes_eq]
  cases t.expectedTotal with
  | none => exact .fault _
  | some e =>
    by_cases hcomplete : frameComplete t.count e
    · simp only [hcomplete, ↓reduceIte]
      cases t.readBytes 0 t.count.toNat with
      | none => exact .fault _
      | some f => exact .next ⟨ht.toIdle, rfl⟩
    · simp only [hcomplete]
      by_cases hfull : bufferFull t.count
      · simp only [hfull, ↓reduceIte]
        exact .next ⟨ht.toIdle, rfl⟩
      · simp only [hfull]
        exact .next ⟨ht, rfl⟩

theorem rxStep (b : Byte) : Lockstep AlikeWithOutcome (rxStep b s) (rxStep b s') := by
  unfold Machine.rxStep
  rw [← h.rxState_eq]
  cases classify s.rxState b with
  | start => exact h.armStart
  | spurious => exact .next ⟨h.cleared, rfl⟩
  | length => exact h.armLength b
  | body => exact h.armBody b

omit h in
theorem reportRx {r r' : Result (State × OpOutcome)} (hr : Lockstep AlikeWithOutcome r r') :
    Lockstep Alike (reportRx r) (reportRx r') := by
  refine hr.andThen fun p p' ⟨hp, ho⟩ => .next ?_
  rw [← ho]
  exact hp.emit _ _

theorem whenClass (c : ByteClass) (b : Byte) {r r' : Result (State × OpOutcome)}
    (hr : Lockstep AlikeWithOutcome r r') : Lockstep Alike (whenClass c b s r) (whenClass c b s' r') := by
  unfold Machine.whenClass
  rw [← h.rxState_eq]
  split
  · exact reportRx hr
  · exact .refused _

theorem judge (o : OpOutcome) : Lockstep Alike (judge s o) (judge s' o) := by
  cases o with
  | complete f =>
    simp only [Machine.judge]
    split
    · exact .refused _
    · exact .next (h.deliverVerdict _)
  | _ => exact .next (h.emit _ _)

theorem deliverByte (b : Byte) : Lockstep Alike (deliverByte b s) (deliverByte b s') := by
  refine (h.rxStep b).andThen fun p p' ⟨hp, ho⟩ => ?_
  rw [← ho]
  exact hp.judge _

/-- Bytes fed one after the other, each in lockstep. -/
theorem feed {take : Byte → State → Result State} (htake : ∀ b t t', Alike t t' → Lockstep Alike (take b t) (take b t'))
    (bs : Bytes) : Lockstep Alike (feed take bs s) (feed take bs s') := by
  induction bs generalizing s s' with
  | nil => exact .next h
  | cons b bs ih => exact (htake b s s' h).andThen fun _ _ ht => ih ht

/-! ### The operations, the step and the run -/

theorem execVerify (f : Bytes) : Lockstep Alike (execVerify f s) (execVerify f s') := by
  unfold Machine.execVerify
  split
  · exact .refused _
  · exact .next (h.emit _ _)

theorem execExtract (f : Bytes) : Lockstep Alike (execExtract f s) (execExtract f s') := by
  unfold Machine.execExtract
  cases payloadOf f with
  | none => exact .next (h.emit _ _)
  | some p => exact .next (h.emit _ _)

theorem execAngle (p : Bytes) : Lockstep Alike (execAngle p s) (execAngle p s') := by
  unfold Machine.execAngle
  cases angleOf p with
  | none => exact .next (h.emit _ _)
  | some a => exact .next (h.emit _ _)

theorem execRxTimeout : Lockstep Alike (execRxTimeout s) (execRxTimeout s') := by
  unfold Machine.execRxTimeout
  rw [← h.rxState_eq]
  split
  · exact .next (h.toIdle.emit _ _)
  · exact .next (h.emit _ _)

theorem exec (i : Instr) : Lockstep Alike (exec i s) (exec i s') := by
  cases i with
  | chk bytes => exact .next (h.emit _ _)
  | encode payload dest frameId => exact .next (h.emit _ _)
  | rxByte b => exact reportRx (h.rxStep b)
  | rxBlock bytes => exact h.feed (fun b _ _ ht => reportRx (ht.rxStep b)) bytes
  | rxTimeout => exact h.execRxTimeout
  | reset => exact .next (h.toIdle.emit _ _)
  | verify f => exact h.execVerify f
  | extract f => exact h.execExtract f
  | angle p => exact h.execAngle p
  | rxDeliver b => exact h.deliverByte b
  | frameTxReq frameId dest payload => exact h.feed (fun b _ _ ht => ht.deliverByte b) _
  | rxbStart => exact h.whenClass _ _ h.armStart
  | rxbSpurious b => exact h.whenClass _ _ (.next ⟨h.cleared, rfl⟩)
  | rxbLength b => exact h.whenClass _ _ (h.armLength b)
  | rxbBody b => exact h.whenClass _ _ (h.armBody b)

/-- One step: the same transaction decodes to the same operation, since `state` agrees. -/
theorem step : Lockstep Alike (step s) (step s') := by
  cases hp : s.pending with
  | nil =>
    rw [step_of_no_pending hp, step_of_no_pending (h.pending ▸ hp)]
    exact .next h
  | cons t rest =>
    have hp' : s'.pending = t :: rest := h.pending ▸ hp
    cases hd : decode s.rxState t with
    | ok i =>
      rw [step_of_decode_ok hp hd, step_of_decode_ok hp' (h.rxState_eq ▸ hd)]
      exact (h.setPending rest).exec i
    | error e =>
      rw [step_of_decode_error hp hd, step_of_decode_error hp' (h.rxState_eq ▸ hd)]
      exact .refused _

end Alike

/-- A run of one step more is a step and then the run. -/
theorem core_run_succ (n : Nat) (s : State) :
    Sys2Proof.core.run (n + 1) s = andThen (step s) (Sys2Proof.core.run n) := by
  have hstep : Sys2Proof.core.step s = step s := rfl
  cases h : step s <;> simp only [Host.Core.run, hstep, h] <;> rfl

theorem Alike.run {s s' : State} (h : Alike s s') (n : Nat) :
    Lockstep Alike (Sys2Proof.core.run n s) (Sys2Proof.core.run n s') := by
  induction n generalizing s s' with
  | zero => exact .next h
  | succ n ih =>
    rw [core_run_succ, core_run_succ]
    exact h.step.andThen fun _ _ ht => ih ht

/-- Settles O51: the two runs are in lockstep, by induction on the number of steps. -/
theorem staleBytesAreUnobservable : Obligations.StaleBytesAreUnobservable := by
  intro s s' hacc hpend hout n
  have h : Lockstep Alike (Sys2Proof.core.run n s) (Sys2Proof.core.run n s') := Alike.run ⟨hacc, hpend, hout⟩ n
  generalize Sys2Proof.core.run n s = r, Sys2Proof.core.run n s' = r' at h ⊢
  cases h with
  | next ht => exact ⟨by rintro _ ⟨⟩; exact ⟨_, rfl, ht.accumulator, ht.pending, ht.outbox⟩, nofun, nofun⟩
  | fault e => exact ⟨nofun, fun _ h => h, nofun⟩
  | refused e => exact ⟨nofun, nofun, fun _ h => h⟩

end Sys2Proof.Machine

/-! The memory `buf` and the operations that stay out of it (spec/20_memory.md): the read of the length field, the frame
of the encoder side and its commuting with the receiver side (R34, R35, R44). -/

namespace Sys2Proof.Machine

/-- An encoder-side operation that answers next in one state answers the same in every state: one outcome, a function of
its operands alone, and nothing else (R44). -/
theorem exec_eq_emit_of_encoderSide {i : Instr} {s t : State} (hi : encoderSide i = true) (h : exec i s = .next t) :
    ∃ ch o, t = s.emit ch o ∧ ∀ r, exec i r = .next (r.emit ch o) := by
  suffices hemit : ∃ ch o, ∀ r, exec i r = .next (r.emit ch o) by
    obtain ⟨ch, o, hemit⟩ := hemit
    exact ⟨ch, o, Host.Outcome.next.inj (h.symm.trans (hemit s)), hemit⟩
  cases i with
  | chk bytes => exact ⟨_, _, fun _ => rfl⟩
  | encode payload dest frameId => exact ⟨_, _, fun _ => rfl⟩
  | verify f =>
    by_cases hlen : f.length < Config.lenAdjust
    · have hrefused : exec (.verify f) s = .refused .verifyDomain := if_pos hlen
      cases hrefused.symm.trans h
    · exact ⟨_, _, fun _ => if_neg hlen⟩
  | extract f =>
    simp only [exec, execExtract]
    cases payloadOf f with
    | none => exact ⟨_, _, fun _ => rfl⟩
    | some p => exact ⟨_, _, fun _ => rfl⟩
  | angle p =>
    simp only [exec, execAngle]
    cases angleOf p with
    | none => exact ⟨_, _, fun _ => rfl⟩
    | some a => exact ⟨_, _, fun _ => rfl⟩
  | _ => cases hi

/-- Settles O50: the encoder side emits the same outcome in every state, and the receiver side runs the same with that
outcome among the outputs. -/
theorem encoderAndReceiverCommute : Obligations.EncoderAndReceiverCommute := by
  intro i j s t u hi _ ht hu
  obtain ⟨ch, o, rfl, hemit⟩ := exec_eq_emit_of_encoderSide hi ht
  obtain ⟨oj, hout, -, hsame⟩ := exec_onlyAppendsOutputs j s u hu
  exact ⟨u.withChannels s.pending ((s.emit ch o).outbox ++ oj), u.emit ch o, [.outcome ch o], oj,
    hsame s.pending (s.emit ch o).outbox, hemit u, ⟨rfl, rfl, rfl, fun _ => rfl⟩, rfl, hout, rfl, rfl⟩

/-- The two bytes of the length field, read inside the architectural part of `buf`. -/
theorem readBytes_length_field {s : State} {h l : Byte} (hc : 3 ≤ s.count.toNat) (h1 : s.buf.read 1 = some h)
    (h2 : s.buf.read 2 = some l) : s.readBytes 1 2 = some [h, l] :=
  readBytes_eq_some.2 ⟨hc, rfl, fun
    | 0, _ => h1
    | 1, _ => h2⟩

/-- Settles O34: the read gives the two length bytes, whose number is their `BE16`. -/
theorem lengthReadIsBigEndian : Obligations.LengthReadIsBigEndian := by
  intro s h l hc h1 h2
  rw [State.memRead, readBytes_length_field hc h1 h2, Option.map_some, bigEndian_pair, be16_toNat]

/-- Settles O45: the operation does nothing but emit its outcome. -/
theorem encoderSideFrame : Obligations.EncoderSideFrame := by
  intro i s t hi h
  obtain ⟨ch, o, rfl, -⟩ := exec_eq_emit_of_encoderSide hi h
  exact ⟨⟨rfl, rfl, rfl, fun _ => rfl⟩, rfl⟩

end Sys2Proof.Machine

/-! The receiver's byte classes (spec/30_encoding.md R51): which bytes and states have each class, which row a byte
decodes to, and that the row of a class is `RX_BYTE` in the states of the class and has no meaning elsewhere. -/

namespace Sys2Proof.Machine

theorem classify_eq_start {st : RxState} {b : Byte} : classify st b = .start ↔ st = .idle ∧ b = Config.startDelim := by
  cases st with
  | idle => by_cases hb : b = Config.startDelim <;> simp [classify, hb]
  | _ => simp [classify]

theorem classify_eq_spurious {st : RxState} {b : Byte} :
    classify st b = .spurious ↔ st = .idle ∧ b ≠ Config.startDelim := by
  cases st with
  | idle => by_cases hb : b = Config.startDelim <;> simp [classify, hb]
  | _ => simp [classify]

theorem classify_eq_length {st : RxState} {b : Byte} : classify st b = .length ↔ st = .accLen := by
  cases st with
  | idle => by_cases hb : b = Config.startDelim <;> simp [classify, hb]
  | _ => simp [classify]

theorem decodeByte_idle_startDelim : decodeByte .idle Config.startDelim = .rxbStart := rfl

theorem decodeByte_idle_of_ne {b : Byte} (hb : b ≠ Config.startDelim) : decodeByte .idle b = .rxbSpurious b := by
  simp only [decodeByte, classify_eq_spurious.2 ⟨rfl, hb⟩]

theorem decodeByte_accLen (b : Byte) : decodeByte .accLen b = .rxbLength b := rfl

theorem decodeByte_accPay (b : Byte) : decodeByte .accPay b = .rxbBody b := rfl

/-- Settles O2: a transaction that is a byte of the stream decodes to the byte's row. -/
theorem byteClassesDecodeByState : Obligations.ByteClassesDecodeByState := fun b =>
  ⟨congrArg Except.ok decodeByte_idle_startDelim, fun hb => congrArg Except.ok (decodeByte_idle_of_ne hb),
    congrArg Except.ok (decodeByte_accLen b), congrArg Except.ok (decodeByte_accPay b)⟩

/-- The row of a byte runs the receiver's step under the class of that byte (R80). -/
theorem exec_decodeByte (b : Byte) (s : State) :
    exec (decodeByte s.rxState b) s = whenClass (classify s.rxState b) b s (rxStep b s) := by
  unfold decodeByte rxStep
  cases hc : classify s.rxState b with
  | start =>
    obtain ⟨-, rfl⟩ := classify_eq_start.1 hc
    rfl
  | _ => rfl

/-- Settles O25: the byte has the class it is run under, so the row is the receiver's step, reported. -/
theorem rxByteRunsItsClass : Obligations.RxByteRunsItsClass := by
  intro b s
  rw [exec_decodeByte, whenClass, if_pos rfl]
  rfl

theorem whenClass_of_classify_ne {c : ByteClass} {b : Byte} {s : State} (hc : classify s.rxState b ≠ c)
    (arm : Result (State × OpOutcome)) : whenClass c b s arm = .refused (.classNotDecoded c) :=
  if_neg hc

/-- Settles O32: in another state no byte has the class. -/
theorem byteClassRefusedElsewhere : Obligations.ByteClassRefusedElsewhere := fun _ _ =>
  ⟨fun hs => whenClass_of_classify_ne (fun hc => hs (classify_eq_start.1 hc).1) _,
    fun hs => whenClass_of_classify_ne (fun hc => hs (classify_eq_spurious.1 hc).1) _,
    fun hs => whenClass_of_classify_ne (fun hc => hs (classify_eq_length.1 hc)) _,
    fun hs => whenClass_of_classify_ne (fun hc => hs (classify_eq_body.1 hc)) _⟩

end Sys2Proof.Machine

/-! The wire frame by its fields (spec/30_encoding.md R45 to R49). Every sequence of at least 18 bytes is the words of
one set of fields; the pattern of the frame is a condition on those fields alone, and the fields that meet it are the
ones the encoder fills in. Decoding and encoding agree in both directions by that one equivalence. -/

namespace Sys2Proof.Machine

theorem be16_eq_iff {h l : Byte} {v : Len16} : be16 h l = v ↔ h = hi8 v ∧ l = lo8 v := by
  have := v.isLt
  simp only [← BitVec.toNat_inj, be16_toNat, hi8, lo8, BitVec.extractLsb'_toNat, Nat.shiftRight_eq_div_pow]
  omega

theorem exists_dest_append {w : Bytes} (h : 8 ≤ w.length) :
    ∃ (dest : Dest) (tail : Bytes), w = dest.toList ++ tail ∧ 8 + tail.length = w.length :=
  ⟨⟨(w.take 8).toArray, by simpa using h⟩, w.drop 8, by simp, by simp; omega⟩

/-- A test that fails with an error is passed when the whole answers an operation. -/
theorem ite_error_eq_ok {c : Prop} [Decidable c] {e : DecodeError} {r : Except DecodeError Instr} {i : Instr} :
    (if c then .error e else r) = .ok i ↔ ¬ c ∧ r = .ok i := by
  by_cases hc : c <;> simp [hc]

/-- What a wire frame must meet to decode: the sizes of R56 and the pattern of R49. -/
theorem decodeFrame_eq_ok {w : Bytes} {i : Instr} :
    decodeFrame w = .ok i ↔
      Config.frameOverhead ≤ w.length ∧ frameFixed.find? (fun f => decide (w[f.1]? ≠ some f.2)) = none ∧
      w.length ≤ Config.capacity ∧ (be16 (w.getD 1 0) (w.getD 2 0)).toNat + Config.lenAdjust = w.length ∧
      checksumOk w = true ∧
      i = .frameTxReq (w.getD 4 0) (frameDest w) (slice w Config.payloadOffset (w.length - 2)) := by
  simp only [decodeFrame, ite_error_eq_ok, Nat.not_lt]
  cases frameFixed.find? (fun f => decide (w[f.1]? ≠ some f.2)) with
  | some f => simp only [reduceCtorEq, false_and, and_false]
  | none =>
    simp only [ite_error_eq_ok, Nat.not_lt, ne_eq, not_not, Bool.not_eq_false, Except.ok.injEq, true_and,
      eq_comm (a := i)]

/-- The fields of a frame at the offsets of R45, at whatever values the wire gives them. -/
structure RawFrame where
  delim : Byte
  lenHi : Byte
  lenLo : Byte
  frameType : Byte
  frameId : Byte
  dest : Dest
  netHi : Byte
  netLo : Byte
  radius : Byte
  options : Byte
  payload : Bytes
  check : Byte

namespace RawFrame

/-- The bytes that the checksum covers (R48). -/
def covered (r : RawFrame) : Bytes :=
  r.frameType :: r.frameId :: (r.dest.toList ++ (r.netHi :: r.netLo :: r.radius :: r.options :: r.payload))

/-- The words of the fields, in wire order. -/
def words (r : RawFrame) : Bytes := r.delim :: r.lenHi :: r.lenLo :: (r.covered ++ [r.check])

/-- The fields as the encoder fills them in (R49). -/
def encoded (frameId : Byte) (dest : Dest) (payload : Bytes) : RawFrame :=
  let lengthField := BitVec.ofNat 16 (Config.lenOverhead + payload.length)
  let r : RawFrame :=
    { delim := Config.startDelim, lenHi := hi8 lengthField, lenLo := lo8 lengthField, frameType := Config.frameType,
      frameId, dest, netHi := hi8 Config.netAddr, netLo := lo8 Config.netAddr, radius := Config.radius,
      options := Config.options, payload, check := 0 }
  { r with check := checksum r.covered }

/-- The encoder writes the fields as it fills them in, in wire order. -/
theorem words_encoded (frameId : Byte) (dest : Dest) (payload : Bytes) :
    (encoded frameId dest payload).words = encodeFrame frameId dest payload := rfl

@[simp] theorem length_covered (r : RawFrame) : r.covered.length = r.payload.length + 14 := by
  simp [covered]
  omega

@[simp] theorem length_words (r : RawFrame) : r.words.length = r.payload.length + 18 := by
  simp [words]

/-- The covered range of a frame is what stands between its length field and its last byte (R32, R48). -/
theorem coveredRange_words (r : RawFrame) : coveredRange r.words = r.covered := by
  have hlen : r.words.length - 2 + 1 - Config.chkFirst = r.covered.length := by simp
  rw [coveredRange, slice, hlen]
  simp [words]

theorem checksumOk_words (r : RawFrame) : checksumOk r.words = true ↔ r.check = checksum r.covered := by
  have hlast : r.words[r.words.length - 1]? = some r.check := by
    rw [← List.getLast?_eq_getElem?]
    simp [words, List.getLast?_cons]
  rw [checksumOk, hlast, coveredRange_words]
  simp

/-- The bytes at the fixed offsets of R49 are the fixed fields. -/
theorem frameFixed_words (r : RawFrame) :
    frameFixed.find? (fun f => decide (r.words[f.1]? ≠ some f.2)) = none ↔
      r.delim = Config.startDelim ∧ r.frameType = Config.frameType ∧ r.netHi = hi8 Config.netAddr ∧
      r.netLo = lo8 Config.netAddr ∧ r.radius = Config.radius ∧ r.options = Config.options := by
  simp [frameFixed, words, covered, List.getElem?_append]

theorem frameDest_words (r : RawFrame) : frameDest r.words = r.dest := by
  ext i hi
  interval_cases i <;> simp [frameDest, words, covered, List.getElem?_append]

theorem payload_words (r : RawFrame) :
    slice r.words Config.payloadOffset (r.words.length - 2) = r.payload := by
  have hlen : r.words.length - 2 + 1 - Config.payloadOffset = r.payload.length := by simp
  rw [slice, hlen]
  simp [words, covered, List.drop_append, List.drop_eq_nil_of_le]

/-- A sequence long enough for the header and the checksum is the words of its fields. -/
theorem exists_words : ∀ w : Bytes, Config.frameOverhead ≤ w.length → ∃ r : RawFrame, r.words = w
  | delim :: lenHi :: lenLo :: frameType :: frameId :: w, hlen => by
    simp only [List.length_cons, Config.frameOverhead] at hlen
    obtain ⟨dest, tail, rfl, htail⟩ := exists_dest_append (w := w) (by omega)
    have htail : 5 ≤ tail.length := by omega
    match tail, htail with
    | netHi :: netLo :: radius :: options :: last :: rest, _ =>
      exact ⟨⟨delim, lenHi, lenLo, frameType, frameId, dest, netHi, netLo, radius, options, (last :: rest).dropLast,
        (last :: rest).getLast nofun⟩, by simp [words, covered, List.dropLast_append_getLast]⟩

/-- The length field is the frame's size minus 4 exactly when it holds what the encoder writes, in a frame that
fits (R46, R49). -/
theorem lengthField_words (r : RawFrame) (hfit : r.words.length ≤ Config.capacity) :
    (be16 r.lenHi r.lenLo).toNat + Config.lenAdjust = r.words.length ↔
      r.lenHi = hi8 (BitVec.ofNat 16 (Config.lenOverhead + r.payload.length)) ∧
      r.lenLo = lo8 (BitVec.ofNat 16 (Config.lenOverhead + r.payload.length)) := by
  rw [length_words] at hfit ⊢
  rw [← be16_eq_iff, ← BitVec.toNat_inj, BitVec.toNat_ofNat]
  simp only [Config.capacity, Config.lenAdjust, Config.lenOverhead] at hfit ⊢
  omega

/-- A frame is decoded exactly when it fits and its fields are those the encoder fills in; it gives the free ones. -/
theorem decodeFrame_words {r : RawFrame} {i : Instr} :
    decodeFrame r.words = .ok i ↔
      r.words.length ≤ Config.capacity ∧ r = encoded r.frameId r.dest r.payload ∧
      i = .frameTxReq r.frameId r.dest r.payload := by
  rw [decodeFrame_eq_ok, frameFixed_words, checksumOk_words, frameDest_words, payload_words]
  constructor
  · rintro ⟨-, ⟨hdelim, htype, hnetHi, hnetLo, hradius, hoptions⟩, hfit, hlength, hcheck, hi⟩
    obtain ⟨hlenHi, hlenLo⟩ := (lengthField_words r hfit).1 hlength
    refine ⟨hfit, ?_, hi⟩
    -- every field but the last is replaced by what the encoder writes there, and then the checksum is over those
    cases r
    dsimp only at *
    subst_vars
    rw [hcheck]
    rfl
  · rintro ⟨hfit, hr, hi⟩
    have hlength := (lengthField_words r hfit).2 (by rw [hr]; exact ⟨rfl, rfl⟩)
    refine ⟨by simp, ?_, hfit, hlength, ?_, hi⟩
    · rw [hr]
      exact ⟨rfl, rfl, rfl, rfl, rfl, rfl⟩
    · rw [hr]
      rfl

end RawFrame

end Sys2Proof.Machine

/-! Decoding and encoding transactions (spec/30_encoding.md R45 to R51), in both directions, and the step that runs a
table word. -/

namespace Sys2Proof.Machine

/-- A wire frame decodes to an operation exactly when it is the encoding of that operation, which is well formed. -/
theorem decodeFrame_eq_ok_iff_encodeFrame {w : Bytes} {i : Instr} :
    decodeFrame w = .ok i ↔
      ∃ frameId dest payload, i = .frameTxReq frameId dest payload ∧ i.wf = true ∧
        encodeFrame frameId dest payload = w := by
  constructor
  · intro h
    obtain ⟨hlong, -⟩ := decodeFrame_eq_ok.1 h
    obtain ⟨r, rfl⟩ := RawFrame.exists_words w hlong
    obtain ⟨hfit, hr, rfl⟩ := RawFrame.decodeFrame_words.1 h
    rw [RawFrame.length_words] at hfit
    exact ⟨_, _, _, rfl, decide_eq_true hfit, congrArg RawFrame.words hr.symm⟩
  · rintro ⟨frameId, dest, payload, rfl, hwf, rfl⟩
    rw [← RawFrame.words_encoded, RawFrame.decodeFrame_words, RawFrame.length_words]
    exact ⟨of_decide_eq_true hwf, rfl, rfl⟩

/-- The row of a byte is well formed, is decoded in the state the byte was met in, and stands for that byte (R51). -/
theorem decodeByte_spec (st : RxState) (b : Byte) :
    (decodeByte st b).wf = true ∧ (decodeByte st b).availableIn st = true ∧ encode (decodeByte st b) = .line b := by
  cases st with
  | idle =>
    by_cases hb : b = Config.startDelim
    · subst hb
      exact ⟨rfl, rfl, rfl⟩
    · rw [decodeByte_idle_of_ne hb]
      exact ⟨decide_eq_true hb, rfl, rfl⟩
  | accLen => exact ⟨rfl, rfl, rfl⟩
  | accPay => exact ⟨rfl, rfl, rfl⟩

/-- Settles O4: a frame by its fields, a byte class by its state, every other operation by its channel. -/
theorem decodeOfEncode : Obligations.DecodeOfEncode := by
  intro st i hwf havail
  cases i with
  | encode payload dest frameId => exact dif_pos dest.size_toArray
  | verify f => exact if_pos (of_decide_eq_true hwf)
  | frameTxReq frameId dest payload =>
    exact decodeFrame_eq_ok_iff_encodeFrame.2 ⟨frameId, dest, payload, rfl, hwf, rfl⟩
  | rxbStart =>
    obtain rfl := of_decide_eq_true havail
    rfl
  | rxbSpurious b =>
    obtain rfl := of_decide_eq_true havail
    exact congrArg Except.ok (decodeByte_idle_of_ne (of_decide_eq_true hwf))
  | rxbLength b =>
    obtain rfl := of_decide_eq_true havail
    rfl
  | rxbBody b =>
    obtain rfl := of_decide_eq_true havail
    rfl
  | _ => rfl

/-- Settles O5: channel by channel; what has a test or a class has the lemma that says what passes it. -/
theorem encodeOfDecode : Obligations.EncodeOfDecode := by
  intro st t i h
  cases t with
  | encReq payload dest frameId =>
    simp only [decode] at h
    split at h
    · cases h
      exact ⟨rfl, rfl, rfl⟩
    · cases h
  | frameInVerify f =>
    simp only [decode] at h
    split at h
    · next hlen =>
      cases h
      exact ⟨decide_eq_true hlen, rfl, rfl⟩
    · cases h
  | line b =>
    cases h
    exact decodeByte_spec st b
  | wireFrame w =>
    obtain ⟨frameId, dest, payload, rfl, hwf, rfl⟩ := decodeFrame_eq_ok_iff_encodeFrame.1 h
    exact ⟨hwf, rfl, rfl⟩
  | _ =>
    cases h
    exact ⟨rfl, rfl, rfl⟩

/-- Settles O1: the two table words and the two bytes by evaluation, the worked frame as the encoding of its fields. -/
theorem writtenOutWordsDecode : Obligations.WrittenOutWordsDecode :=
  ⟨rfl, rfl, rfl, rfl,
    decodeOfEncode .idle (.frameTxReq 0x01 #v[0x00, 0x13, 0xA2, 0x00, 0x42, 0x2D, 0xB5, 0xC4] [0x39, 0x30]) rfl rfl⟩

/-- A table word is a byte of the stream or a wire frame (log entry 4). -/
theorem tableTransaction_cases (nbits w : Nat) :
    (∃ b, tableTransaction nbits w = .line b) ∨ ∃ f, tableTransaction nbits w = .wireFrame f := by
  unfold tableTransaction
  split
  · exact .inl ⟨_, rfl⟩
  · exact .inr ⟨_, rfl⟩

theorem decode_of_decodeTableWord {nbits w : Nat} {i : Instr} (h : decodeTableWord nbits w = some i) :
    decode .idle (tableTransaction nbits w) = .ok i := by
  unfold decodeTableWord at h
  cases hd : decode .idle (tableTransaction nbits w) with
  | ok j => simpa [hd, Except.toOption] using h
  | error e => simp [hd, Except.toOption] at h

/-- Settles O6: a byte is placed before a receiver in `Idle`, where the table word was decoded; a wire frame decodes in
every state alike. -/
theorem stepRunsTableWord : Obligations.StepRunsTableWord := by
  intro s nbits w i h
  have hd := decode_of_decodeTableWord h
  obtain ⟨b, ht⟩ | ⟨f, ht⟩ := tableTransaction_cases nbits w
  · rw [ht] at hd
    simp only [State.withFetchWord, ht]
    exact ⟨_, step_of_decode_ok rfl hd, rfl, rfl, rfl⟩
  · rw [ht] at hd
    simp only [State.withFetchWord, ht]
    exact ⟨_, step_of_decode_ok rfl hd, rfl, rfl, rfl⟩

end Sys2Proof.Machine

/-! From a state that meets the invariant the receiver takes every byte (R20, R80), and the whole receive path does
(R92, R110). So does a feed of bytes, and the wire frame that is one (log entry 2). -/

namespace Sys2Proof.Machine

/-- The total is announced once the length field was written (R83). -/
theorem announcedTotal_isSome {s : State} (hw : s.Written) (hc : 3 ≤ s.count.toNat) :
    ∃ e, s.announcedTotal = some e := by
  obtain ⟨bs, hbs⟩ := readBytes_isSome hw (addr := 1) (n := 2) hc
  rw [State.announcedTotal, State.memRead, hbs]
  exact ⟨_, rfl⟩

theorem armStart_completes (s : State) : ∃ t o, armStart s = .next (t, o) := by
  rw [armStart, append_of_lt (by simp), andThen_next]
  exact ⟨_, _, rfl⟩

theorem armLength_completes {s : State} (hc : s.count.toNat < Config.capacity) (hw : s.Written) (b : Byte) :
    ∃ t o, armLength b s = .next (t, o) := by
  rw [armLength, append_of_lt hc, andThen_next]
  split
  · next h3 =>
    obtain ⟨e, he⟩ := announcedTotal_isSome (written_appended hw hc b) h3.ge
    rw [he]
    exact ⟨_, _, rfl⟩
  · exact ⟨_, _, rfl⟩

theorem armBody_completes {s : State} (hc : s.count.toNat < Config.capacity) (hw : s.Written) {e : BitVec 17}
    (he : s.expectedTotal = some e) (b : Byte) : ∃ t o, armBody b s = .next (t, o) := by
  obtain ⟨f, hf⟩ := readBytes_isSome (written_appended hw hc b) (Nat.zero_add _).le
  rw [armBody, append_of_lt hc, andThen_next, State.appended_expectedTotal, he]
  dsimp only
  rw [hf]
  split
  · exact ⟨_, _, rfl⟩
  split
  · exact ⟨_, _, rfl⟩
  · exact ⟨_, _, rfl⟩

/-- The receiver takes every byte (R20, R80). -/
theorem rxStep_completes {s : State} (hs : s.Inv) (b : Byte) : ∃ t o, rxStep b s = .next (t, o) := by
  obtain ⟨-, -, hw, -, hlen, hpay⟩ := hs
  unfold rxStep
  split
  · exact armStart_completes s
  · exact ⟨_, _, rfl⟩
  · next hc =>
    obtain ⟨-, h2, -⟩ := hlen (classify_eq_length.1 hc)
    exact armLength_completes (Nat.lt_of_le_of_lt h2 (by decide)) hw b
  · next hc =>
    obtain ⟨-, hcap, -, -, hany⟩ := hpay (classify_eq_body.1 hc)
    obtain ⟨e, he, -⟩ := (Option.any_eq_true _ _).1 hany
    exact armBody_completes hcap hw he b

/-- A frame the receiver emits has at least 4 bytes (R92). -/
theorem lenAdjust_le_of_rxStep_complete {s t : State} {b : Byte} {f : Bytes} (hs : s.Inv)
    (h : rxStep b s = .next (t, .complete f)) : Config.lenAdjust ≤ f.length := by
  obtain ⟨-, -, -, -, -, hpay⟩ := hs
  obtain ⟨-, -, -, ho⟩ | ⟨-, -, -, ho⟩ | ⟨-, -, -, -, ho⟩ | ⟨-, -, e, -, -, ho⟩ | ⟨hst, -, e, g, -, -, hread, -, ho⟩ |
    ⟨-, -, e, -, -, -, ho⟩ | ⟨-, -, e, -, -, -, ho⟩ := rxStep_cases h <;> cases ho
  obtain ⟨h3, -⟩ := hpay hst
  obtain ⟨-, hlen, -⟩ := readBytes_eq_some.1 hread
  rw [hlen]
  exact Nat.succ_le_succ h3

/-- The whole receive path takes every byte (R110). -/
theorem deliverByte_completes {s : State} (hs : s.Inv) (b : Byte) : ∃ t, deliverByte b s = .next t := by
  obtain ⟨u, o, hu⟩ := rxStep_completes hs b
  rw [deliverByte, hu, andThen_next]
  by_cases ho : ∃ f, o = .complete f
  · obtain ⟨f, rfl⟩ := ho
    exact ⟨_, judge_complete u (lenAdjust_le_of_rxStep_complete hs hu)⟩
  · exact ⟨_, judge_of_not_complete u (not_exists.1 ho)⟩

/-- A feed completes when every byte does and keeps what it needs to. -/
theorem feed_completes {take : Byte → State → Result State} {P : State → Prop}
    (htake : ∀ b s, P s → ∃ t, take b s = .next t) (hkeeps : ∀ b s t, P s → take b s = .next t → P t)
    (bs : Bytes) {s : State} (hs : P s) : ∃ t, feed take bs s = .next t := by
  induction bs generalizing s with
  | nil => exact ⟨s, rfl⟩
  | cons b bs ih =>
    obtain ⟨u, hu⟩ := htake b s hs
    rw [feed_cons, hu, andThen_next]
    exact ih (hkeeps b s u hs hu)

/-- Settles O40: the feed of the words by definition; it completes since every byte does and keeps the invariant. -/
theorem wireFrameIsItsBytesDelivered : Obligations.WireFrameIsItsBytesDelivered := fun frameId dest p _ =>
  ⟨rfl, feed_completes (fun b _ hs => deliverByte_completes hs b)
    (fun b _ _ hs h => exec_keeps_inv (i := .rxDeliver b) hs h) (encodeFrame frameId dest p)⟩

end Sys2Proof.Machine

/-! The checksum as arithmetic (spec/40_checksum.md R65 to R68). `CHK` is `255` minus the sum modulo 256, and a frame is
accepted exactly when the bytes from the first covered one to the last, the checksum included, sum to `255` modulo 256.
One changed byte moves that sum by less than 256, so it cannot go unnoticed. -/

namespace Sys2Proof.Machine

/-! ### The sum of a byte sequence -/

@[simp] theorem byteSum_nil : byteSum [] = 0 := rfl

@[simp] theorem byteSum_cons (b : Byte) (s : Bytes) : byteSum (b :: s) = b.toNat + byteSum s := by
  simp [byteSum]

@[simp] theorem byteSum_append (s t : Bytes) : byteSum (s ++ t) = byteSum s + byteSum t := by
  simp [byteSum]

theorem byteSum_perm {s t : Bytes} (h : s.Perm t) : byteSum s = byteSum t := (h.map _).sum_eq

/-- A byte put in the place of another moves the sum by their difference. -/
theorem byteSum_set : ∀ {s : Bytes} {i : Nat} (hi : i < s.length) (b : Byte),
    byteSum (s.set i b) + s[i].toNat = byteSum s + b.toNat
  | a :: s, 0, _, b => by
    simp
    omega
  | a :: s, i + 1, hi, b => by
    have ih := byteSum_set (Nat.lt_of_succ_lt_succ hi) b
    simp
    omega

/-! ### The checksum -/

/-- The accumulator of `CHK` reduces after every addition; that is the sum reduced once (R65, R66). -/
theorem foldl_add_toNat (s : Bytes) (acc : Byte) :
    (s.foldl (fun acc b => acc + b) acc).toNat = (acc.toNat + byteSum s) % 256 := by
  induction s generalizing acc with
  | nil => simpa using (Nat.mod_eq_of_lt acc.isLt).symm
  | cons b s ih =>
    rw [List.foldl_cons, ih, BitVec.toNat_add, byteSum_cons, Nat.mod_add_mod, Nat.add_assoc]

theorem checksum_toNat (s : Bytes) : (checksum s).toNat = 255 - byteSum s % 256 := by
  have hacc := foldl_add_toNat s 0#8
  rw [BitVec.toNat_zero, Nat.zero_add] at hacc
  rw [checksum, BitVec.toNat_sub, hacc, BitVec.toNat_ofNat]
  omega

/-- The byte sequence enters the checksum by its sum alone (R65). -/
theorem checksum_eq_ofNat (s : Bytes) : checksum s = BitVec.ofNat 8 (255 - byteSum s % 256) := by
  rw [← checksum_toNat, BitVec.ofNat_toNat, BitVec.setWidth_eq]

/-- The verification identity (R67). -/
theorem eq_checksum_iff {c : Byte} {s : Bytes} : c = checksum s ↔ (byteSum s + c.toNat) % 256 = 255 := by
  have hc := c.isLt
  rw [← BitVec.toNat_inj, checksum_toNat]
  omega

theorem exec_chk (bytes : Bytes) (s : State) :
    exec (.chk bytes) s = .next (s.emit .chkRsp (.checksum (checksum bytes))) := rfl

/-- Two byte sequences of one sum have one checksum (R66). -/
theorem exec_chk_congr {xs ys : Bytes} (h : byteSum xs = byteSum ys) (s : State) :
    exec (.chk xs) s = exec (.chk ys) s := by
  rw [exec_chk, exec_chk, checksum_eq_ofNat, checksum_eq_ofNat, h]

/-- What was emitted can be read off the outputs. -/
theorem State.emit_inj {s : State} {ch ch' : OutChannel} {o o' : OpOutcome} :
    s.emit ch o = s.emit ch' o' ↔ ch = ch' ∧ o = o' := by
  simp [State.emit]

/-- Settles O13: the checksum in closed form. -/
theorem chkIsComplementOfSum : Obligations.ChkIsComplementOfSum := fun bytes s => by
  rw [exec_chk, checksum_eq_ofNat]

/-- Settles O14: the bytes enter the checksum by their sum, which no permutation and no zero byte changes. -/
theorem chkLaws : Obligations.ChkLaws := by
  refine ⟨fun a b => Nat.mod_add_mod a 256 b, fun acc => ⟨Nat.le_of_lt_succ acc.isLt, ?_⟩,
    fun xs ys s => ⟨?_, ?_, ?_⟩⟩
  · exact (BitVec.allOnes_sub_eq_not acc).trans BitVec.xor_allOnes.symm
  · exact fun h => exec_chk_congr (byteSum_perm h) s
  · exact exec_chk_congr (byteSum_perm List.perm_append_comm) s
  · exact exec_chk_congr (by simp) s

/-! ### VERIFY -/

/-- A frame is accepted when its bytes from the first covered one on, the checksum included, sum to 255 modulo 256
(R48, R67, R100). -/
theorem checksumOk_iff {f : Bytes} (hf : Config.lenAdjust ≤ f.length) :
    checksumOk f = true ↔ byteSum (f.drop Config.chkFirst) % 256 = 255 := by
  have hlen : f.length - 2 + 1 - Config.chkFirst = (f.drop Config.chkFirst).length - 1 := by
    simp at hf ⊢
    omega
  have hcovered : coveredRange f = (f.drop Config.chkFirst).dropLast := by
    rw [coveredRange, slice, hlen, List.dropLast_eq_take]
  have hlast : f[f.length - 1]? = (f.drop Config.chkFirst).getLast? := by
    rw [List.getLast?_drop, if_neg (Nat.not_le.2 hf), List.getLast?_eq_getElem?]
  rw [checksumOk, decide_eq_true_iff, hcovered, hlast]
  obtain hnil | ⟨xs, c, hconcat⟩ := List.eq_nil_or_concat' (f.drop Config.chkFirst)
  · exact absurd (List.drop_eq_nil_iff.1 hnil) (Nat.not_le.2 hf)
  · rw [hconcat, List.getLast?_concat, List.dropLast_concat, Option.some_inj, eq_checksum_iff]
    simp

theorem exec_verify {f : Bytes} (hf : Config.lenAdjust ≤ f.length) (s : State) :
    exec (.verify f) s = .next (s.emit .caller (if checksumOk f then .valid else .checksumMismatch)) :=
  if_neg (Nat.not_lt.2 hf)

/-- `VERIFY` ends with the one verdict it gives (R100). -/
theorem exec_verify_endsWith_iff {f : Bytes} (hf : Config.lenAdjust ≤ f.length) {s : State} {o : OpOutcome} :
    EndsWith (exec (.verify f) s) s o ↔ (if checksumOk f then .valid else .checksumMismatch) = o := by
  simp [EndsWith, exec_verify hf, State.emit_inj]

/-- `VERIFY` in terms of sums (R67, R100). -/
theorem exec_verify_valid_iff {f : Bytes} (hf : Config.lenAdjust ≤ f.length) {s : State} :
    EndsWith (exec (.verify f) s) s .valid ↔ byteSum (f.drop Config.chkFirst) % 256 = 255 := by
  rw [exec_verify_endsWith_iff hf, ← checksumOk_iff hf]
  cases checksumOk f <;> simp

theorem exec_verify_checksumMismatch_iff {f : Bytes} (hf : Config.lenAdjust ≤ f.length) {s : State} :
    EndsWith (exec (.verify f) s) s .checksumMismatch ↔ byteSum (f.drop Config.chkFirst) % 256 ≠ 255 := by
  rw [exec_verify_endsWith_iff hf, ne_eq, ← checksumOk_iff hf]
  cases checksumOk f <;> simp

/-- Settles O15: the identity for `CHK`, and for `VERIFY` its form over the whole frame. -/
theorem verificationIdentity : Obligations.VerificationIdentity := by
  refine ⟨fun bytes c s => ?_, fun covered d h l c s => ?_⟩
  · rw [exec_chk, ← eq_checksum_iff]
    simp [State.emit_inj, eq_comm]
  · rw [exec_verify_valid_iff (by simp)]
    simp

/-- Settles O18: the change moves the sum of the bytes from offset 3 on by a non-zero amount below 256. -/
theorem singleByteChangeDetected : Obligations.SingleByteChangeDetected := by
  intro f k b s hf h3 hk hb hvalid
  rw [exec_verify_valid_iff hf] at hvalid
  rw [exec_verify_checksumMismatch_iff (by simpa using hf), List.drop_set, if_neg (Nat.not_lt.2 h3)]
  have hi : k - Config.chkFirst < (f.drop Config.chkFirst).length := by
    simp
    omega
  have hold : (f.drop Config.chkFirst)[k - Config.chkFirst] = f[k] := by simp [Nat.add_sub_cancel' h3]
  have hne : f[k].toNat ≠ b.toNat := by simpa [List.getElem?_eq_getElem hk, BitVec.toNat_inj] using hb
  have hsum := byteSum_set hi b
  rw [hold] at hsum
  have := b.isLt
  have := f[k].isLt
  omega

end Sys2Proof.Machine

/-! The encoder (spec/41_encoder.md): `ENCODE` writes the frame of the field table, whose bytes are read off by offset. -/

namespace Sys2Proof.Machine

theorem hi8_ofNat (n : Nat) : hi8 (BitVec.ofNat 16 n) = BitVec.ofNat 8 (n / 256) := by
  simp [hi8, ← BitVec.toNat_inj, Nat.shiftRight_eq_div_pow]
  omega

theorem lo8_ofNat (n : Nat) : lo8 (BitVec.ofNat 16 n) = BitVec.ofNat 8 (n % 256) := by
  simp [lo8, ← BitVec.toNat_inj]

/-! ### The fields of a frame by offset -/

namespace RawFrame

variable (r : RawFrame)

theorem getElem?_words_dest (k : Fin 8) : r.words[5 + k.val]? = some (r.dest.get k) := by
  simp [words, covered, List.getElem?_append, Nat.add_comm 5, Vector.get]

theorem getElem?_words_netHi : r.words[13]? = some r.netHi := by
  simp [words, covered]

theorem getElem?_words_netLo : r.words[14]? = some r.netLo := by
  simp [words, covered, List.getElem?_append]

theorem getElem?_words_radius : r.words[15]? = some r.radius := by
  simp [words, covered, List.getElem?_append]

theorem getElem?_words_options : r.words[16]? = some r.options := by
  simp [words, covered, List.getElem?_append]

/-- From offset 17 on stand the payload and the checksum. -/
theorem drop_words_payloadOffset : r.words.drop Config.payloadOffset = r.payload ++ [r.check] := by
  simp [words, covered, List.drop_append, List.drop_eq_nil_of_le]

theorem getElem?_words_payload {j : Nat} (hj : j < r.payload.length) : r.words[17 + j]? = r.payload[j]? := by
  rw [← List.getElem?_drop, drop_words_payloadOffset, List.getElem?_append_left hj]

theorem getElem?_words_check : r.words[17 + r.payload.length]? = some r.check := by
  rw [← List.getElem?_drop, drop_words_payloadOffset, List.getElem?_concat_length]

/-- The covered bytes are those from offset 3 up to the checksum (R48). -/
theorem drop_take_words : (r.words.take (17 + r.payload.length)).drop Config.chkFirst = r.covered := by
  simp [words, Nat.add_comm 17]

theorem check_encoded (frameId : Byte) (dest : Dest) (payload : Bytes) :
    (encoded frameId dest payload).check = checksum (encoded frameId dest payload).covered := rfl

end RawFrame

/-! ### ENCODE -/

theorem exec_encode (p : Bytes) (dest : Dest) (frameId : Byte) (s : State) :
    exec (.encode p dest frameId) s = .next (s.emit .encRsp (encodeOutcome p dest frameId)) := rfl

/-- The sequence of R70 is the words of the field table (R45). -/
theorem encodeWords_eq_encodeFrame (p : Bytes) (dest : Dest) (frameId : Byte) :
    encodeWords p dest frameId = encodeFrame frameId dest p := by
  have hhi : hi8 Config.netAddr = 0xFF#8 := rfl
  have hlo : lo8 Config.netAddr = 0xFE#8 := rfl
  simp [encodeWords, encodeBody, encodeFrame, hhi, hlo]

theorem exec_encode_of_fits {p : Bytes} (hp : p.length + 18 ≤ 100) (dest : Dest) (frameId : Byte) (s : State) :
    exec (.encode p dest frameId) s = .next (s.emit .encRsp (.encoded (encodeFrame frameId dest p))) := by
  rw [exec_encode, encodeOutcome, if_neg (Nat.not_lt.2 hp), encodeWords_eq_encodeFrame]

theorem exec_encode_of_oversize {p : Bytes} (hp : 100 < p.length + 18) (dest : Dest) (frameId : Byte) (s : State) :
    exec (.encode p dest frameId) s = .next (s.emit .encRsp .oversizePayload) := by
  rw [exec_encode, encodeOutcome, if_pos hp]

/-- Settles O22: the frame is the words of its fields, and each field is read at its offset. -/
theorem encodeFieldsByOffset : Obligations.EncodeFieldsByOffset := by
  intro p dest frameId s hp
  have hhi : hi8 (BitVec.ofNat 16 (14 + p.length)) = 0x00#8 := by
    rw [hi8_ofNat, Nat.div_eq_of_lt (by omega)]
  have hchk : exec (.chk (((RawFrame.encoded frameId dest p).words.take (17 + p.length)).drop 3)) s =
      .next (s.emit .chkRsp (.checksum (RawFrame.encoded frameId dest p).check)) := by
    rw [exec_chk, RawFrame.check_encoded, ← RawFrame.drop_take_words]
    rfl
  exact ⟨(RawFrame.encoded frameId dest p).words, exec_encode_of_fits hp dest frameId s, RawFrame.length_words _, rfl,
    congrArg some (hi8_ofNat _), congrArg some hhi, congrArg some (lo8_ofNat _), rfl, rfl,
    RawFrame.getElem?_words_dest _, RawFrame.getElem?_words_netHi _, RawFrame.getElem?_words_netLo _,
    RawFrame.getElem?_words_radius _, RawFrame.getElem?_words_options _,
    fun _ => RawFrame.getElem?_words_payload (RawFrame.encoded frameId dest p), _, RawFrame.getElem?_words_check _, hchk⟩

/-- Settles O23: the size test decides between the two outcomes, which differ. -/
theorem encodeSucceedsIffItFits : Obligations.EncodeSucceedsIffItFits := by
  intro p dest frameId s
  refine ⟨⟨fun ⟨w, hw⟩ => ?_, fun hp => ⟨_, exec_encode_of_fits hp dest frameId s⟩⟩,
    fun hp => exec_encode_of_oversize hp dest frameId s⟩
  by_contra hp
  rw [exec_encode_of_oversize (Nat.lt_of_not_le hp)] at hw
  simp [State.emit_inj] at hw

/-- Settles O24: the case that fits, where the sequence of R70 is the words of the field table. -/
theorem encodeBuildsTheWireFrame : Obligations.EncodeBuildsTheWireFrame :=
  fun _ dest frameId s hp => exec_encode_of_fits hp dest frameId s

end Sys2Proof.Machine

/-! Every operation answers next from a state that meets the invariant (R20, R38, R80), so a step stops only on a
transaction that is no operation. The row of a byte class completes because it is `RX_BYTE` in its own state. -/

namespace Sys2Proof.Machine

/-! ### The row of a byte class is `RX_BYTE` in its state (R51, R80) -/

section ByteClassRows

variable {s : State} {b : Byte}

theorem exec_rxbStart_eq_rxByte (hs : s.rxState = .idle) : exec .rxbStart s = exec (.rxByte Config.startDelim) s := by
  rw [rxByteRunsItsClass, hs, decodeByte_idle_startDelim]

theorem exec_rxbSpurious_eq_rxByte (hs : s.rxState = .idle) (hb : b ≠ Config.startDelim) :
    exec (.rxbSpurious b) s = exec (.rxByte b) s := by
  rw [rxByteRunsItsClass, hs, decodeByte_idle_of_ne hb]

theorem exec_rxbLength_eq_rxByte (hs : s.rxState = .accLen) : exec (.rxbLength b) s = exec (.rxByte b) s := by
  rw [rxByteRunsItsClass, hs, decodeByte_accLen]

theorem exec_rxbBody_eq_rxByte (hs : s.rxState = .accPay) : exec (.rxbBody b) s = exec (.rxByte b) s := by
  rw [rxByteRunsItsClass, hs, decodeByte_accPay]

end ByteClassRows

/-! ### Completion -/

/-- A receiver step with its outcome reported is `RX_BYTE`. -/
theorem exec_rxByte_of_rxStep {b : Byte} {s u : State} {o : OpOutcome} (h : rxStep b s = .next (u, o)) :
    exec (.rxByte b) s = .next (u.emit .rxEvt o) :=
  reportRx_eq_next.2 ⟨u, o, h, rfl⟩

theorem exec_rxByte_completes {s : State} (hs : s.Inv) (b : Byte) : ∃ t, exec (.rxByte b) s = .next t := by
  obtain ⟨u, o, hu⟩ := rxStep_completes hs b
  exact ⟨_, exec_rxByte_of_rxStep hu⟩

theorem exec_rxBlock_completes {s : State} (hs : s.Inv) (bytes : Bytes) : ∃ t, exec (.rxBlock bytes) s = .next t :=
  feed_completes (fun b _ hs => exec_rxByte_completes hs b) (fun b _ _ hs h => exec_keeps_inv (i := .rxByte b) hs h)
    bytes hs

theorem exec_rxTimeout_of_ne_idle {s : State} (hs : s.rxState ≠ .idle) :
    exec .rxTimeout s = .next (s.toIdle.emit .rxEvt .idleTimeout) := if_pos hs

theorem exec_rxTimeout_of_idle {s : State} (hs : s.rxState = .idle) :
    exec .rxTimeout s = .next (s.emit .rxEvt .none) := if_neg (not_not.2 hs)

theorem exec_rxTimeout_completes (s : State) : ∃ t, exec .rxTimeout s = .next t := by
  by_cases hs : s.rxState = .idle
  · exact ⟨_, exec_rxTimeout_of_idle hs⟩
  · exact ⟨_, exec_rxTimeout_of_ne_idle hs⟩

theorem exec_extract_completes (f : Bytes) (s : State) : ∃ t, exec (.extract f) s = .next t := by
  simp only [exec, execExtract]
  cases payloadOf f with
  | none => exact ⟨_, rfl⟩
  | some p => exact ⟨_, rfl⟩

theorem exec_angle_completes (p : Bytes) (s : State) : ∃ t, exec (.angle p) s = .next t := by
  simp only [exec, execAngle]
  cases angleOf p with
  | none => exact ⟨_, rfl⟩
  | some a => exact ⟨_, rfl⟩

/-- Settles O11: the invariant is what a received byte needs; the operands of the other operations need nothing but
`VERIFY`'s 4 bytes. -/
theorem everyOperationCompletes : Obligations.EveryOperationCompletes := by
  intro i s hs hwf havail
  cases i with
  | chk bytes => exact ⟨_, rfl⟩
  | encode payload dest frameId => exact ⟨_, rfl⟩
  | rxByte b => exact exec_rxByte_completes hs b
  | rxBlock bytes => exact exec_rxBlock_completes hs bytes
  | rxTimeout => exact exec_rxTimeout_completes s
  | reset => exact ⟨_, rfl⟩
  | verify f => exact ⟨_, exec_verify (of_decide_eq_true hwf) s⟩
  | extract f => exact exec_extract_completes f s
  | angle p => exact exec_angle_completes p s
  | rxDeliver b => exact deliverByte_completes hs b
  | frameTxReq frameId dest payload => exact (wireFrameIsItsBytesDelivered frameId dest payload s).2 hs
  | rxbStart =>
    rw [exec_rxbStart_eq_rxByte (of_decide_eq_true havail)]
    exact exec_rxByte_completes hs _
  | rxbSpurious b =>
    rw [exec_rxbSpurious_eq_rxByte (of_decide_eq_true havail) (of_decide_eq_true hwf)]
    exact exec_rxByte_completes hs b
  | rxbLength b =>
    rw [exec_rxbLength_eq_rxByte (of_decide_eq_true havail)]
    exact exec_rxByte_completes hs b
  | rxbBody b =>
    rw [exec_rxbBody_eq_rxByte (of_decide_eq_true havail)]
    exact exec_rxByte_completes hs b

/-- Settles O12: what decodes is well formed and decoded in the present state, so it completes. -/
theorem stepStopsOnlyOnUndecodable : Obligations.StepStopsOnlyOnUndecodable := by
  intro s hs
  cases hp : s.pending with
  | nil => exact .inl ⟨s, step_of_no_pending hp⟩
  | cons x rest =>
    cases hd : decode s.rxState x with
    | ok i =>
      obtain ⟨hwf, havail, -⟩ := encodeOfDecode _ _ _ hd
      rw [step_of_decode_ok hp hd]
      exact .inl (everyOperationCompletes i { s with pending := rest } hs hwf havail)
    | error e => exact .inr ⟨x, rest, e, rfl, hd, step_of_decode_error hp hd⟩

end Sys2Proof.Machine

/-! The receiver's rows (spec/42_receiver.md R82 to R86, R89): what a byte does in each of the three states, as an
equation per row, and what is read off from the equations. -/

namespace Sys2Proof.Machine

/-! ### One equation per row -/

section Rows

variable {s : State} {b : Byte}

/-- A delimiter in `Idle` is stored at 0 of a cleared accumulator (R82). -/
theorem rxStep_startDelim (hs : s.rxState = .idle) :
    rxStep Config.startDelim s =
      .next ({ s.cleared.appended Config.startDelim with rxState := .accLen }, .none) := by
  simp only [rxStep, classify_eq_start.2 ⟨hs, rfl⟩, armStart]
  rw [append_of_lt (by simp), andThen_next]

/-- Any other byte in `Idle` clears the accumulator and is dropped (R80, R82). -/
theorem rxStep_spurious (hs : s.rxState = .idle) (hb : b ≠ Config.startDelim) :
    rxStep b s = .next (s.cleared, .none) := by
  simp only [rxStep, classify_eq_spurious.2 ⟨hs, hb⟩, armSpurious]

/-- A length byte other than the third byte of the frame is only stored (R83). -/
theorem rxStep_length_of_ne (hs : s.rxState = .accLen) (hc : s.count.toNat < Config.capacity)
    (h3 : s.count.toNat + 1 ≠ Config.lenFieldEnd) : rxStep b s = .next (s.appended b, .none) := by
  simp only [rxStep, classify_eq_length.2 hs, armLength, append_of_lt hc, andThen_next, State.appended_count,
    count_succ_toNat hc, if_neg h3]

/-- The third byte of the frame makes the total known (R83). -/
theorem rxStep_length_of_eq (hs : s.rxState = .accLen) (h3 : s.count.toNat + 1 = Config.lenFieldEnd) {e : BitVec 17}
    (he : (s.appended b).announcedTotal = some e) :
    rxStep b s = .next ({ s.appended b with expectedTotal := some e, rxState := .accPay }, .none) := by
  have hc : s.count.toNat < Config.capacity := Nat.lt_of_succ_le (h3.le.trans (by decide))
  simp only [rxStep, classify_eq_length.2 hs, armLength, append_of_lt hc, andThen_next, State.appended_count,
    count_succ_toNat hc, if_pos h3, he]

/-- A body byte is stored, and the two tests on the new count decide what follows (R84 to R86). -/
theorem rxStep_body (hs : s.rxState = .accPay) (hc : s.count.toNat < Config.capacity) {e : BitVec 17}
    (he : s.expectedTotal = some e) {f : Bytes} (hf : (s.appended b).readBytes 0 (s.count.toNat + 1) = some f) :
    rxStep b s =
      if e.toNat ≤ s.count.toNat + 1 then .next ((s.appended b).toIdle, .complete f)
      else if s.count.toNat + 1 = Config.capacity then .next ((s.appended b).toIdle, .overflow)
      else .next (s.appended b, .none) := by
  simp only [rxStep, classify_eq_body.2 hs, armBody, append_of_lt hc, andThen_next, State.appended_expectedTotal, he,
    frameComplete, bufferFull, State.appended_count, count_succ_toNat hc, hf, decide_eq_true_eq]

end Rows

/-! ### What the invariant says of the registers -/

/-- Clearing the accumulator in `Idle` changes nothing: it is empty already (R14). -/
theorem cleared_eq_self {s : State} (hinv : s.Inv) (hs : s.rxState = .idle) : s.cleared = s := by
  obtain ⟨-, -, -, hidle, -, -⟩ := hinv
  obtain ⟨hcount, htotal⟩ := hidle hs
  simp only [State.cleared, ← hcount, ← htotal]

/-- The frame that is in the buffer after a body byte: the bytes before it, and then that byte (R84). -/
theorem exists_frame_of_appended {s : State} (hw : s.Written) (hc : s.count.toNat < Config.capacity) (b : Byte) :
    ∃ f, (s.appended b).readBytes 0 (s.count.toNat + 1) = some f ∧ f.length = s.count.toNat + 1 ∧
      (∀ k < s.count.toNat, f[k]? = s.buf.read k) ∧ f[s.count.toNat]? = some b := by
  obtain ⟨f, hf⟩ := readBytes_isSome (written_appended hw hc b) (addr := 0) (n := s.count.toNat + 1)
    (by rw [Nat.zero_add, State.appended_count, count_succ_toNat hc])
  obtain ⟨-, hlen, hread⟩ := readBytes_eq_some.1 hf
  simp only [Nat.zero_add] at hread
  refine ⟨f, hf, hlen, fun k hk => ?_, ?_⟩
  · rw [← hread k (by omega), read_appended_of_lt hk]
  · rw [← hread _ (Nat.lt_succ_self _), State.appended_buf, Memory.read_write_same]

/-! ### `Idle` and `AccLen` -/

/-- Settles O26: the two rows of `Idle`; the clear they begin with has nothing to clear. -/
theorem idleByte : Obligations.IdleByte := by
  intro s hinv hs
  refine ⟨?_, fun b hb => ?_⟩
  · have h := exec_rxByte_of_rxStep (rxStep_startDelim hs)
    exact ⟨_, h, (exec_rxbStart_eq_rxByte hs).trans h, rfl, rfl, Memory.read_write_same _ _ _, rfl, rfl⟩
  · have h := exec_rxByte_of_rxStep (rxStep_spurious hs hb)
    rw [cleared_eq_self hinv hs] at h
    exact ⟨h, (exec_rxbSpurious_eq_rxByte hs hb).trans h⟩

/-- Settles O27: the two rows of `AccLen`; the total that the third byte announces fits its 17 bits. -/
theorem lengthByte : Obligations.LengthByte := by
  intro s b hinv hs
  obtain ⟨-, -, hw, -, hlen, -⟩ := hinv
  obtain ⟨-, -, -, htotal⟩ := hlen hs
  refine ⟨fun h1 => ?_, fun h2 => ?_⟩
  · have hc : s.count.toNat < Config.capacity := by simp [h1]
    have h := exec_rxByte_of_rxStep (rxStep_length_of_ne (b := b) hs hc (by simp [h1]))
    refine ⟨_, h, (exec_rxbLength_eq_rxByte hs).trans h, hs, ?_, ?_, htotal, rfl⟩
    · rw [State.emit_count, State.appended_count, count_succ_toNat hc, h1]
    · simp [h1]
  · have hc : s.count.toNat < Config.capacity := by simp [h2]
    have hcount : (s.appended b).count.toNat = 3 := by rw [State.appended_count, count_succ_toNat hc, h2]
    obtain ⟨h, hh⟩ := Option.isSome_iff_exists.1 (hw 1 (by omega))
    have hhigh : (s.appended b).buf.read 1 = some h := (read_appended_of_lt (by omega) b).trans hh
    have hlow : (s.appended b).buf.read 2 = some b := by simp [h2]
    have hstep := exec_rxByte_of_rxStep
      (rxStep_length_of_eq hs (by simp [h2]) (announcedTotal_eq hcount.ge hhigh hlow))
    have hbound := (be16 h b).isLt
    refine ⟨_, h, _, hstep, (exec_rxbLength_eq_rxByte hs).trans hstep, hh, rfl, hcount, hhigh, hlow, rfl, ?_, ?_, ?_, rfl⟩
    · rw [announcedTotal_toNat, be16_toNat]
    · rw [announcedTotal_toNat]
      exact Nat.le_add_left _ _
    · rw [announcedTotal_toNat]
      simp only [Config.lenAdjust]
      omega

/-! ### `AccPay` -/

/-- A body byte from the invariant: `RX_BYTE` and `RXB.BODY` do the same, which the two tests decide (R84 to R86). -/
theorem exec_bodyByte {s : State} (hinv : s.Inv) (hs : s.rxState = .accPay) {e : BitVec 17}
    (he : s.expectedTotal = some e) (b : Byte) :
    ∃ f, f.length = s.count.toNat + 1 ∧ (∀ k < s.count.toNat, f[k]? = s.buf.read k) ∧ f[s.count.toNat]? = some b ∧
      exec (.rxbBody b) s = exec (.rxByte b) s ∧
      exec (.rxByte b) s = .next (
        if e.toNat ≤ s.count.toNat + 1 then (s.appended b).toIdle.emit .rxEvt (.complete f)
        else if s.count.toNat + 1 = Config.capacity then (s.appended b).toIdle.emit .rxEvt .overflow
        else (s.appended b).emit .rxEvt .none) := by
  obtain ⟨-, -, hw, -, -, hpay⟩ := hinv
  obtain ⟨-, hc, -⟩ := hpay hs
  obtain ⟨f, hf, hlen, hbefore, hlast⟩ := exists_frame_of_appended hw hc b
  refine ⟨f, hlen, hbefore, hlast, exec_rxbBody_eq_rxByte hs, reportRx_eq_next.2 ?_⟩
  rw [rxStep_body hs hc he hf]
  split
  · exact ⟨_, _, rfl, rfl⟩
  split
  · exact ⟨_, _, rfl, rfl⟩
  · exact ⟨_, _, rfl, rfl⟩

/-- Settles O28: the completion test comes first. -/
theorem bodyByteCompletes : Obligations.BodyByteCompletes := by
  intro s b e hinv hs he hle
  obtain ⟨f, hlen, hbefore, hlast, hrow, h⟩ := exec_bodyByte hinv hs he b
  rw [if_pos hle] at h
  exact ⟨_, f, h, hrow.trans h, hlen, hbefore, hlast, State.toIdle_fresh (s.appended b), rfl⟩

/-- Settles O29: the completion test fails and the overflow test holds; the byte was stored all the same. -/
theorem bodyByteOverflows : Obligations.BodyByteOverflows := by
  intro s b e hinv hs he hlt hfull
  obtain ⟨f, -, -, -, hrow, h⟩ := exec_bodyByte hinv hs he b
  rw [if_neg hlt.not_ge, if_pos hfull] at h
  have hcount : s.count.toNat = 99 := Nat.succ.inj hfull
  exact ⟨_, h, hrow.trans h, State.toIdle_fresh (s.appended b), by simp [hcount], rfl⟩

/-- Settles O31: both tests fail. -/
theorem bodyByteAccumulates : Obligations.BodyByteAccumulates := by
  intro s b e hinv hs he hlt hroom
  obtain ⟨f, -, -, -, hrow, h⟩ := exec_bodyByte hinv hs he b
  rw [if_neg hlt.not_ge, if_neg hroom.ne] at h
  have hc : s.count.toNat < Config.capacity := Nat.lt_of_succ_lt hroom
  exact ⟨_, h, hrow.trans h, hs, count_succ_toNat hc, he, Memory.read_write_same _ _ _, rfl⟩

/-! ### From the outcome back to the row -/

/-- The receiver step behind an `RX_BYTE`, with the outcome that is seen on `rx_evt`. -/
theorem rxStep_of_exec_rxByte {b : Byte} {s t : State} (h : exec (.rxByte b) s = .next t) :
    ∃ u o, rxStep b s = .next (u, o) ∧ t = u.emit .rxEvt o ∧ t.outbox = s.outbox ++ [.outcome .rxEvt o] := by
  obtain ⟨u, o, hu, rfl⟩ := reportRx_eq_next.1 h
  exact ⟨u, o, hu, rfl, by rw [State.emit_outbox, (rxStep_channels hu).2]⟩

theorem exists_rxStep_of_outcome {b : Byte} {s t : State} {o : OpOutcome} (h : exec (.rxByte b) s = .next t)
    (ho : t.outbox = s.outbox ++ [.outcome .rxEvt o]) : ∃ u, rxStep b s = .next (u, o) := by
  obtain ⟨u, o', hu, -, hout⟩ := rxStep_of_exec_rxByte h
  obtain rfl : o' = o := by simpa using hout.symm.trans ho
  exact ⟨u, hu⟩

/-- Settles O30: one row of the table overflows, and O29 says that it does. -/
theorem overflowOnlyPastCapacity : Obligations.OverflowOnlyPastCapacity := by
  intro s b hinv
  constructor
  · rintro ⟨t, h, hout⟩
    obtain ⟨u, hu⟩ := exists_rxStep_of_outcome h hout
    obtain ⟨-, -, -, ho⟩ | ⟨-, -, -, ho⟩ | ⟨-, -, -, -, ho⟩ | ⟨-, -, e, -, -, ho⟩ | ⟨-, -, e, f, -, -, -, -, ho⟩ |
      ⟨hs, hfull, e, he, hlt, -, ho⟩ | ⟨-, -, e, -, -, -, ho⟩ := rxStep_cases hu <;> cases ho
    exact ⟨hs, Nat.succ.inj hfull, e, he, hfull.symm.trans_lt hlt⟩
  · rintro ⟨hs, hcount, e, he, hlt⟩
    obtain ⟨t, h, -, -, -, hout⟩ := bodyByteOverflows s b e hinv hs he (by omega) (by omega)
    exact ⟨t, h, hout⟩

/-- Settles O57: the frame is what `buf` holds when the count reaches the total that its own length bytes announced. -/
theorem emittedFramesAreLengthValidated : Obligations.EmittedFramesAreLengthValidated := by
  intro s t b f hinv h hout
  obtain ⟨u, hu⟩ := exists_rxStep_of_outcome h hout
  obtain ⟨-, -, -, ho⟩ | ⟨-, -, -, ho⟩ | ⟨-, -, -, -, ho⟩ | ⟨-, -, e, -, -, ho⟩ |
    ⟨hs, hc, e, g, he, hle, hread, -, ho⟩ | ⟨-, -, e, -, -, -, ho⟩ | ⟨-, -, e, -, -, -, ho⟩ := rxStep_cases hu <;>
    cases ho
  obtain ⟨-, -, hw, -, -, hpay⟩ := hinv
  obtain ⟨h3, -, hdelim, htotal, hany⟩ := hpay hs
  obtain ⟨-, hlen, hbytes⟩ := readBytes_eq_some.1 hread
  have hold (k : Nat) (hk : k < s.count.toNat) : f[k]? = s.buf.read k := by
    rw [← hbytes k (by omega), Nat.zero_add, read_appended_of_lt hk]
  have heq : e.toNat = f.length := by
    rw [he, Option.any_some, decide_eq_true_iff] at hany
    omega
  obtain ⟨hi, hhi⟩ := Option.isSome_iff_exists.1 (hw 1 (by omega))
  obtain ⟨lo, hlo⟩ := Option.isSome_iff_exists.1 (hw 2 (by omega))
  have hfield : (be16 hi lo).toNat + 4 = e.toNat := by
    rw [he, announcedTotal_eq h3 hhi hlo, Option.some_inj] at htotal
    rw [htotal, announcedTotal_toNat]
  refine ⟨(hold 0 (by omega)).trans hdelim,
    ⟨hi, lo, (hold 1 (by omega)).trans hhi, (hold 2 (by omega)).trans hlo, hfield.trans heq⟩,
    ⟨e, he, heq⟩, by omega, ?_⟩
  rw [hlen]
  exact hc

/-! ### The events and the table of transfers -/

/-- Settles O36: the two cases of the event. -/
theorem rxTimeoutDropsPartialFrame : Obligations.RxTimeoutDropsPartialFrame := fun _ =>
  ⟨fun hs => ⟨_, exec_rxTimeout_of_ne_idle hs, rfl, rfl, rfl, fun _ => rfl, rfl, rfl⟩, exec_rxTimeout_of_idle⟩

/-- Settles O33: the events by their equations, the encoder side by its frame, a byte by the rows of the receiver's
step. -/
theorem stateTransitionTable : Obligations.StateTransitionTable := by
  refine ⟨fun s t h => ⟨fun hs => ?_, fun hs => ?_⟩, fun s t h => ?_, fun i s t hi h => ?_, fun s t b hinv h => ?_⟩
  · cases (exec_rxTimeout_of_ne_idle hs).symm.trans h
    exact ⟨rfl, rfl⟩
  · cases (exec_rxTimeout_of_idle hs).symm.trans h
    exact ⟨hs, rfl⟩
  · cases h
    exact ⟨rfl, .caller, rfl⟩
  · obtain ⟨⟨hs, -⟩, -⟩ := encoderSideFrame i s t hi h
    exact hs.symm
  · obtain ⟨-, -, -, -, hlen, -⟩ := hinv
    obtain ⟨u, o, hu, rfl, hout⟩ := rxStep_of_exec_rxByte h
    refine ⟨o, hout, ?_⟩
    obtain ⟨hs, hb, rfl, ho⟩ | ⟨hs, hb, rfl, ho⟩ | ⟨hs, -, h3, rfl, ho⟩ | ⟨hs, h3, e, -, rfl, ho⟩ |
      ⟨hs, -, e, f, he, hle, -, rfl, ho⟩ | ⟨hs, hfull, e, he, hlt, rfl, ho⟩ | ⟨hs, hroom, e, he, hlt, rfl, ho⟩ :=
      rxStep_cases hu
    · exact .inl ⟨hs, hb, rfl, ho⟩
    · exact .inr (.inl ⟨hs, hb, hs, ho⟩)
    · obtain ⟨h1, h2, -⟩ := hlen hs
      simp only [Config.lenFieldEnd] at h3
      exact .inr (.inr (.inl ⟨hs, by omega, hs, ho⟩))
    · exact .inr (.inr (.inr (.inl ⟨hs, h3, rfl, ho⟩)))
    · exact .inr (.inr (.inr (.inr (.inl ⟨hs, ⟨e, f, he, hle, ho⟩, rfl⟩))))
    · exact .inr (.inr (.inr (.inr (.inr (.inl ⟨hs, ⟨e, he, hlt⟩, hfull, rfl, ho⟩)))))
    · exact .inr (.inr (.inr (.inr (.inr (.inr ⟨hs, ⟨e, he, hlt⟩, hroom, hs, ho⟩)))))

/-! ### RX_BLOCK -/

/-- From the invariant a block gives one outcome for each of its bytes (R88). -/
theorem exec_rxBlock_outcomes {s : State} (hinv : s.Inv) (bytes : Bytes) :
    ∃ (t : State) (os : List OpOutcome), exec (.rxBlock bytes) s = .next t ∧ os.length = bytes.length ∧
      t.outbox = s.outbox ++ os.map (.outcome .rxEvt) := by
  induction bytes generalizing s with
  | nil => exact ⟨s, [], rfl, rfl, by simp⟩
  | cons b bytes ih =>
    obtain ⟨u, hu⟩ := exec_rxByte_completes hinv b
    obtain ⟨-, o, -, -, hout⟩ := rxStep_of_exec_rxByte hu
    obtain ⟨t, os, ht, hlen, hout'⟩ := ih (exec_keeps_inv hinv hu)
    refine ⟨t, o :: os, andThen_eq_next.2 ⟨u, hu, ht⟩, by simp [hlen], ?_⟩
    rw [hout', hout, List.append_assoc]
    rfl

/-- Settles O35: the laws of the feed, and one outcome per byte by induction on the bytes. -/
theorem rxBlockIsIteratedRxByte : Obligations.RxBlockIsIteratedRxByte := fun s =>
  ⟨rfl, fun _ _ => rfl, fun xs ys => feed_append _ xs ys s, fun bytes hinv => exec_rxBlock_outcomes hinv bytes⟩

end Sys2Proof.Machine

/-! What the receiver side leaves unchanged (spec/42_receiver.md R81, R88, R90). No operation touches the waiting
transactions; a byte is stored at one address at most, and bytes on the whole receive path are stored as by `RX_BLOCK`,
since the path differs from it in its outputs alone. -/

namespace Sys2Proof.Machine

theorem exec_keeps_pending {i : Instr} {s t : State} (h : exec i s = .next t) : t.pending = s.pending := by
  obtain ⟨-, -, hpend, -⟩ := exec_onlyAppendsOutputs i s t h
  exact hpend

/-- Settles O46: the accumulator is emptied or kept, and `buf` is left alone in both cases. -/
theorem eventFrame : Obligations.EventFrame := by
  rintro i s t (rfl | rfl) h
  · refine ⟨fun a => ?_, exec_keeps_pending h⟩
    by_cases hs : s.rxState = .idle
    · cases (exec_rxTimeout_of_idle hs).symm.trans h
      rfl
    · cases (exec_rxTimeout_of_ne_idle hs).symm.trans h
      rfl
  · cases h
    exact ⟨fun _ => rfl, rfl⟩

/-! ### One byte -/

theorem rxStoreAddr_startDelim {s : State} (hs : s.rxState = .idle) : rxStoreAddr Config.startDelim s = some 0 := by
  simp only [rxStoreAddr, classify_eq_start.2 ⟨hs, rfl⟩, State.cleared_appendAddr]

theorem rxStoreAddr_spurious {s : State} {b : Byte} (hs : s.rxState = .idle) (hb : b ≠ Config.startDelim) :
    rxStoreAddr b s = none := by
  simp only [rxStoreAddr, classify_eq_spurious.2 ⟨hs, hb⟩]

theorem rxStoreAddr_length {s : State} (hs : s.rxState = .accLen) (b : Byte) :
    rxStoreAddr b s = some s.count.toNat := by
  simp only [rxStoreAddr, classify_eq_length.2 hs, State.appendAddr]

theorem rxStoreAddr_body {s : State} (hs : s.rxState = .accPay) (b : Byte) :
    rxStoreAddr b s = some s.count.toNat := by
  simp only [rxStoreAddr, classify_eq_body.2 hs, State.appendAddr]

/-- `buf` after one byte was stored where the receiver stores it, or nowhere (R81). -/
def storedBuf (b : Byte) (s : State) : Memory := (rxStoreAddr b s).elim s.buf fun a => s.buf.write a b

theorem read_storedBuf_of_eq {b : Byte} {s : State} {a : Nat} (h : rxStoreAddr b s = some a) :
    (storedBuf b s).read a = some b := by
  rw [storedBuf, h]
  exact Memory.read_write_same _ _ _

theorem read_storedBuf_of_ne {b : Byte} {s : State} {x : Nat} (h : rxStoreAddr b s ≠ some x) :
    (storedBuf b s).read x = s.buf.read x := by
  unfold storedBuf
  cases ha : rxStoreAddr b s with
  | none => rfl
  | some a => exact Memory.read_write_other _ _ fun hx => h (hx ▸ ha)

/-- The receiver's step stores its byte and writes `buf` nowhere else (R81). -/
theorem rxStep_buf {b : Byte} {s u : State} {o : OpOutcome} (h : rxStep b s = .next (u, o)) :
    u.buf = storedBuf b s := by
  unfold storedBuf
  obtain ⟨hs, rfl, rfl, -⟩ | ⟨hs, hb, rfl, -⟩ | ⟨hs, -, -, rfl, -⟩ | ⟨hs, -, e, -, rfl, -⟩ |
    ⟨hs, -, e, f, -, -, -, rfl, -⟩ | ⟨hs, -, e, -, -, rfl, -⟩ | ⟨hs, -, e, -, -, rfl, -⟩ := rxStep_cases h
  · rw [rxStoreAddr_startDelim hs]
    rfl
  · rw [rxStoreAddr_spurious hs hb]
    rfl
  · rw [rxStoreAddr_length hs]
    rfl
  · rw [rxStoreAddr_length hs]
    rfl
  all_goals
    rw [rxStoreAddr_body hs]
    rfl

theorem exec_rxByte_buf {b : Byte} {s t : State} (h : exec (.rxByte b) s = .next t) : t.buf = storedBuf b s := by
  obtain ⟨u, o, hu, rfl, -⟩ := rxStep_of_exec_rxByte h
  rw [State.emit_buf, rxStep_buf hu]

theorem deliverVerdict_eq_withChannels (s : State) (o : OpOutcome) :
    ∃ os, s.deliverVerdict o = s.withChannels s.pending os := by
  cases o <;> exact ⟨_, rfl⟩

/-- Judging an outcome adds outputs and does nothing else (R110). -/
theorem judge_eq_withChannels {s t : State} {o : OpOutcome} (h : judge s o = .next t) :
    ∃ os, t = s.withChannels s.pending os := by
  cases o with
  | complete f =>
    simp only [judge] at h
    split at h
    · cases h
    · cases h
      exact deliverVerdict_eq_withChannels s _
  | _ =>
    cases h
    exact ⟨_, rfl⟩

/-- `RX_BYTE` does what the whole receive path does, but for the channels. -/
theorem exec_rxByte_of_deliverByte {b : Byte} {s t : State} (h : deliverByte b s = .next t) :
    ∃ q os, exec (.rxByte b) s = .next (t.withChannels q os) := by
  obtain ⟨⟨u, o⟩, hu, h⟩ := andThen_eq_next.1 h
  obtain ⟨os, rfl⟩ := judge_eq_withChannels h
  exact ⟨u.pending, (u.emit .rxEvt o).outbox, exec_rxByte_of_rxStep hu⟩

/-- A byte class that answers next did what `RX_BYTE` of its byte does (R51, R80). -/
theorem exec_rxByte_of_byteClass {i : Instr} {b : Byte} {s t : State}
    (hi : (i = .rxbStart ∧ b = Config.startDelim) ∨ i = .rxbSpurious b ∨ i = .rxbLength b ∨ i = .rxbBody b)
    (h : exec i s = .next t) : exec (.rxByte b) s = .next t := by
  obtain ⟨rfl, rfl⟩ | rfl | rfl | rfl := hi
  · obtain ⟨hc, -⟩ := whenClass_eq_next.1 h
    obtain ⟨hs, -⟩ := classify_eq_start.1 hc
    exact (exec_rxbStart_eq_rxByte hs).symm.trans h
  · obtain ⟨hc, -⟩ := whenClass_eq_next.1 h
    obtain ⟨hs, hb⟩ := classify_eq_spurious.1 hc
    exact (exec_rxbSpurious_eq_rxByte hs hb).symm.trans h
  · obtain ⟨hc, -⟩ := whenClass_eq_next.1 h
    exact (exec_rxbLength_eq_rxByte (classify_eq_length.1 hc)).symm.trans h
  · obtain ⟨hc, -⟩ := whenClass_eq_next.1 h
    exact (exec_rxbBody_eq_rxByte (classify_eq_body.1 hc)).symm.trans h

/-- Settles O47: whichever of the six takes the byte, `buf` is left as by the one store of `RX_BYTE`. -/
theorem oneByteFrame : Obligations.OneByteFrame := by
  intro i b s t hi h
  suffices hbuf : t.buf = storedBuf b s by
    rw [hbuf]
    exact ⟨exec_keeps_pending h, fun _ => read_storedBuf_of_eq, fun _ => read_storedBuf_of_ne⟩
  obtain rfl | rfl | hclass := hi
  · exact exec_rxByte_buf h
  · obtain ⟨q, os, h⟩ := exec_rxByte_of_deliverByte h
    exact (exec_rxByte_buf h :)
  · exact exec_rxByte_buf (exec_rxByte_of_byteClass hclass h)

/-! ### Several bytes -/

/-- A byte of `buf` that the block does not store at keeps its value, by induction on the bytes (R88). -/
theorem exec_rxBlock_keeps_read {bytes : Bytes} {s t : State} {x : Nat} (h : exec (.rxBlock bytes) s = .next t)
    (hx : ∀ k b u, bytes[k]? = some b → exec (.rxBlock (bytes.take k)) s = .next u → rxStoreAddr b u ≠ some x) :
    t.buf.read x = s.buf.read x := by
  induction bytes generalizing s with
  | nil =>
    cases h
    rfl
  | cons b bytes ih =>
    obtain ⟨u, hu, h⟩ := andThen_eq_next.1 h
    have hfirst : u.buf.read x = s.buf.read x := by
      rw [exec_rxByte_buf hu, read_storedBuf_of_ne (hx 0 b s rfl rfl)]
    refine (ih h fun k c v hc hv => ?_).trans hfirst
    exact hx (k + 1) c v hc (andThen_eq_next.2 ⟨u, hu, hv⟩)

/-- `RX_BLOCK` does what its bytes on the whole receive path do, but for the channels. -/
theorem exec_rxBlock_of_feed_deliverByte {bytes : Bytes} {s t : State} (h : feed deliverByte bytes s = .next t) :
    ∃ q os, exec (.rxBlock bytes) s = .next (t.withChannels q os) := by
  induction bytes generalizing s with
  | nil =>
    cases h
    exact ⟨_, _, rfl⟩
  | cons b bytes ih =>
    obtain ⟨u, hu, h⟩ := andThen_eq_next.1 h
    obtain ⟨q, os, hbyte⟩ := exec_rxByte_of_deliverByte hu
    obtain ⟨_, _, hrest⟩ := ih h
    obtain ⟨new, -, -, hsame⟩ := exec_onlyAppendsOutputs (.rxBlock bytes) u _ hrest
    exact ⟨q, os ++ new, andThen_eq_next.2 ⟨u.withChannels q os, hbyte, hsame q os⟩⟩

/-- Settles O48: the frame of `RX_BLOCK`, to which a wire frame is led back. -/
theorem manyBytesFrame : Obligations.ManyBytesFrame := by
  rintro i bytes s t (rfl | ⟨frameId, dest, p, rfl, rfl⟩) h
  · exact ⟨exec_keeps_pending h, fun x hx => exec_rxBlock_keeps_read h hx⟩
  · obtain ⟨q, os, hblock⟩ := exec_rxBlock_of_feed_deliverByte h
    exact ⟨exec_keeps_pending h, fun x hx => (exec_rxBlock_keeps_read hblock hx :)⟩

end Sys2Proof.Machine

/-! `VERIFY`, `EXTRACT` and `ANGLE` (spec/43_frame_check_extract.md R100 to R108): one equation per operation, the
payload as a piece of the frame and the decimal reading as a number. -/

namespace Sys2Proof.Machine

/-! ### VERIFY by its bytes -/

/-- The covered range leaves out the first three bytes and the last (R48). -/
theorem coveredRange_eq_drop_dropLast (f : Bytes) : coveredRange f = f.dropLast.drop Config.chkFirst := by
  have hlen : f.length - 2 + 1 - Config.chkFirst = (f.drop Config.chkFirst).length - 1 := by
    simp
    omega
  rw [coveredRange, slice, hlen, ← List.dropLast_eq_take, List.dropLast_drop_eq_drop_dropLast]

/-- Settles O16: the test of `VERIFY`, with the covered range and its checksum written out. -/
theorem verifyComparesTrailingByte : Obligations.VerifyComparesTrailingByte := by
  intro f s hf
  rw [exec_verify_endsWith_iff hf, checksumOk, coveredRange_eq_drop_dropLast, checksum_eq_ofNat]
  simp only [decide_eq_true_eq]

theorem exec_verify_valid_iff_checksumOk {f : Bytes} (hf : Config.lenAdjust ≤ f.length) {s : State} :
    EndsWith (exec (.verify f) s) s .valid ↔ checksumOk f = true := by
  rw [exec_verify_endsWith_iff hf]
  cases checksumOk f <;> simp

theorem exec_verify_checksumMismatch_iff_not_checksumOk {f : Bytes} (hf : Config.lenAdjust ≤ f.length) {s : State} :
    EndsWith (exec (.verify f) s) s .checksumMismatch ↔ checksumOk f = false := by
  rw [exec_verify_endsWith_iff hf]
  cases checksumOk f <;> simp

/-- Settles O17: the domain test of `VERIFY` comes first. -/
theorem verifyRefusesShortInput : Obligations.VerifyRefusesShortInput := fun _ _ hf => if_pos hf

/-! ### EXTRACT -/

theorem exec_extract (f : Bytes) (s : State) :
    exec (.extract f) s = .next (s.emit .caller ((payloadOf f).elim .frameTooShort .payload)) := by
  simp only [exec, execExtract]
  cases payloadOf f <;> rfl

/-- `EXTRACT` ends with the one outcome it gives (R103). -/
theorem exec_extract_endsWith_iff {f : Bytes} {s : State} {o : OpOutcome} :
    EndsWith (exec (.extract f) s) s o ↔ (payloadOf f).elim .frameTooShort .payload = o := by
  simp [EndsWith, exec_extract, State.emit_inj]

theorem payloadOf_of_short {f : Bytes} (hf : f.length < Config.frameOverhead) : payloadOf f = none := if_pos hf

/-- The payload begins at offset 17 and is what stands before the checksum, 82 bytes at most (R103, R105). -/
theorem payloadOf_of_long {f : Bytes} (hf : Config.frameOverhead ≤ f.length) :
    payloadOf f = some ((f.drop Config.payloadOffset).take (min (f.length - 18) 82)) := by
  rw [payloadOf, if_neg (Nat.not_lt.2 hf), slice]
  congr 2
  simp
  omega

theorem exec_extract_frameTooShort_iff {f : Bytes} {s : State} :
    EndsWith (exec (.extract f) s) s .frameTooShort ↔ payloadOf f = none := by
  rw [exec_extract_endsWith_iff]
  cases payloadOf f <;> simp

theorem exec_extract_payload_iff {f p : Bytes} {s : State} :
    EndsWith (exec (.extract f) s) s (.payload p) ↔ payloadOf f = some p := by
  rw [exec_extract_endsWith_iff]
  cases payloadOf f <;> simp

/-- Settles O19: the payload read off by its place in the frame. -/
theorem extractTakesPayload : Obligations.ExtractTakesPayload := by
  intro f s
  refine ⟨fun hf => exec_extract_frameTooShort_iff.2 (payloadOf_of_short hf), fun hf =>
    ⟨_, exec_extract_payload_iff.2 (payloadOf_of_long hf), ?_, fun j hj => ?_⟩⟩
  · rw [List.length_take, List.length_drop]
    simp
    omega
  · rw [List.length_take] at hj
    rw [List.getElem?_take_of_lt (by omega), List.getElem?_drop]

/-! ### ANGLE -/

theorem exec_angle (p : Bytes) (s : State) :
    exec (.angle p) s = .next (s.emit .caller ((angleOf p).elim .payloadOutOfRange .angle)) := by
  simp only [exec, execAngle]
  cases angleOf p <;> rfl

/-- `ANGLE` ends with the one outcome it gives (R106). -/
theorem exec_angle_endsWith_iff {p : Bytes} {s : State} {o : OpOutcome} :
    EndsWith (exec (.angle p) s) s o ↔ (angleOf p).elim .payloadOutOfRange .angle = o := by
  simp [EndsWith, exec_angle, State.emit_inj]

/-- The byte is an ASCII decimal digit (00_scope.md section 5.2). -/
abbrev IsDigit (d : Byte) : Prop := 0x30 ≤ d.toNat ∧ d.toNat ≤ 0x39

/-- The number that digits spell, the last the least significant. -/
abbrev spelledNumber (p : Bytes) : Nat := Nat.ofDigits 10 (p.reverse.map fun d => d.toNat - 0x30)

theorem spelledNumber_cons (d : Byte) (p : Bytes) :
    spelledNumber (d :: p) = spelledNumber p + 10 ^ p.length * (d.toNat - 0x30) := by
  simp [spelledNumber, Nat.ofDigits_append]

theorem digitValue_eq_ite (d : Byte) : digitValue d = if IsDigit d then some (d.toNat - 0x30) else none := rfl

/-- The loop of `ANGLE` on digits only, from any value it has reached (R106). -/
theorem decimalFrom_of_digits {p : Bytes} (hp : ∀ d ∈ p, IsDigit d) (v : Nat) :
    decimalFrom v p = some (10 ^ p.length * v + spelledNumber p) := by
  induction p generalizing v with
  | nil => simp [decimalFrom, spelledNumber]
  | cons d p ih =>
    obtain ⟨hd, hp⟩ := List.forall_mem_cons.1 hp
    rw [decimalFrom, digitValue_eq_ite, if_pos hd]
    dsimp only
    rw [ih hp, spelledNumber_cons, List.length_cons]
    congr 1
    ring

/-- A byte that is no digit stops the loop, wherever it stands (R107). -/
theorem decimalFrom_of_not_digits {p : Bytes} (hp : ¬ ∀ d ∈ p, IsDigit d) (v : Nat) : decimalFrom v p = none := by
  induction p generalizing v with
  | nil => exact absurd (List.forall_mem_nil _) hp
  | cons d p ih =>
    rw [decimalFrom, digitValue_eq_ite]
    by_cases hd : IsDigit d
    · rw [if_pos hd]
      exact ih (fun h => hp (List.forall_mem_cons.2 ⟨hd, h⟩)) _
    · rw [if_neg hd]

theorem decimalValue_of_ne_nil {p : Bytes} (hp : p ≠ []) : decimalValue p = decimalFrom 0 p := by
  cases p with
  | nil => exact absurd rfl hp
  | cons d p => rfl

/-- The decimal reading in closed form (R106, R107). -/
theorem decimalValue_eq_ite (p : Bytes) :
    decimalValue p = if p ≠ [] ∧ ∀ d ∈ p, IsDigit d then some (spelledNumber p) else none := by
  by_cases hnil : p = []
  · rw [hnil, if_neg (fun h => h.1 rfl)]
    rfl
  rw [decimalValue_of_ne_nil hnil]
  by_cases hp : ∀ d ∈ p, IsDigit d
  · rw [if_pos ⟨hnil, hp⟩, decimalFrom_of_digits hp, Nat.mul_zero, Nat.zero_add]
  · rw [if_neg (fun h => hp h.2), decimalFrom_of_not_digits hp]

/-- The angle a payload spells, in closed form (R106 to R108). -/
theorem angleOf_eq_ite (p : Bytes) :
    angleOf p =
      if p ≠ [] ∧ (∀ d ∈ p, IsDigit d) ∧ 1 ≤ spelledNumber p ∧ spelledNumber p ≤ 180 then
        some (BitVec.ofNat 8 (spelledNumber p))
      else none := by
  rw [angleOf, decimalValue_eq_ite]
  by_cases hp : p ≠ [] ∧ ∀ d ∈ p, IsDigit d
  · obtain ⟨hnil, hdigits⟩ := hp
    rw [if_pos ⟨hnil, hdigits⟩]
    by_cases hrange : 1 ≤ spelledNumber p ∧ spelledNumber p ≤ 180
    · rw [if_pos ⟨hnil, hdigits, hrange⟩]
      obtain ⟨hmin, hmax⟩ := hrange
      exact if_neg (not_or.2 ⟨Nat.not_lt.2 hmin, Nat.not_lt.2 hmax⟩)
    · rw [if_neg fun ⟨_, _, h⟩ => hrange h]
      exact if_pos ((not_and_or.1 hrange).imp Nat.lt_of_not_le Nat.lt_of_not_le)
  · rw [if_neg hp, if_neg fun ⟨hnil, hdigits, _⟩ => hp ⟨hnil, hdigits⟩]

theorem exec_angle_payloadOutOfRange_iff {p : Bytes} {s : State} :
    EndsWith (exec (.angle p) s) s .payloadOutOfRange ↔ angleOf p = none := by
  rw [exec_angle_endsWith_iff]
  cases angleOf p <;> simp

theorem exec_angle_angle_iff {p : Bytes} {a : Byte} {s : State} :
    EndsWith (exec (.angle p) s) s (.angle a) ↔ angleOf p = some a := by
  rw [exec_angle_endsWith_iff]
  cases angleOf p <;> simp

/-- Settles O20: the closed form of the angle, read off in both cases. -/
theorem angleReadsDecimal : Obligations.AngleReadsDecimal := fun p _ =>
  ⟨fun hp => exec_angle_angle_iff.2 ((angleOf_eq_ite p).trans (if_pos hp)),
    fun hp => exec_angle_payloadOutOfRange_iff.2 ((angleOf_eq_ite p).trans (if_neg hp))⟩

/-- The loop that has reached 0 passes a leading zero by. -/
theorem decimalFrom_zero_replicate (n : Nat) (p : Bytes) :
    decimalFrom 0 (List.replicate n 0x30#8 ++ p) = decimalFrom 0 p := by
  induction n with
  | zero => rfl
  | succ n ih => exact ih

/-- Settles O21: the loop starts at 0, and leading zeros leave it there. -/
theorem angleIgnoresLeadingZeros : Obligations.AngleIgnoresLeadingZeros := by
  intro n p s hp
  have hvalue : decimalValue (List.replicate n 0x30#8 ++ p) = decimalValue p := by
    rw [decimalValue_of_ne_nil (List.append_ne_nil_of_right_ne_nil _ hp), decimalFrom_zero_replicate,
      decimalValue_of_ne_nil hp]
  rw [exec_angle, exec_angle, angleOf, angleOf, hvalue]

end Sys2Proof.Machine

/-! The whole receive path (spec/43_frame_check_extract.md R110 to R112): what `RX_DELIVER` hands out, and that the
Actuator is asked for the delivered angles and nothing else. -/

namespace Sys2Proof.Machine

/-! ### What a verdict hands out -/

/-- The outputs of a verdict: its outcome on `deliver`, an angle after its request (R110). -/
def verdictOutputs : OpOutcome → List Output
  | .angle a => [.applyPosition a, .outcome .deliver (.angle a)]
  | o => [.outcome .deliver o]

@[simp] theorem State.deliverVerdict_outbox (s : State) (o : OpOutcome) :
    (s.deliverVerdict o).outbox = s.outbox ++ verdictOutputs o := by
  cases o with
  | angle a => exact List.append_assoc _ _ _
  | _ => rfl

/-- The whole receive path is the receiver's step and then the judging of its outcome (R110). -/
theorem exec_rxDeliver_of_rxStep {b : Byte} {s u : State} {o : OpOutcome} (h : rxStep b s = .next (u, o)) :
    exec (.rxDeliver b) s = judge u o := by
  rw [exec, execRxDeliver, deliverByte, h, andThen_next]

/-- Settles O39: the receiver's step gives the outcome; a Complete frame has at least 4 bytes, and its verdict goes
through the results of the three operations in their order. -/
theorem rxDeliverChainsTheChecks : Obligations.RxDeliverChainsTheChecks := by
  intro b s hinv
  obtain ⟨u, o, hu⟩ := rxStep_completes hinv b
  obtain ⟨-, hout⟩ := rxStep_channels hu
  have hdeliver := exec_rxDeliver_of_rxStep hu
  by_cases ho : ∃ f, o = .complete f
  · obtain ⟨f, rfl⟩ := ho
    have hf := lenAdjust_le_of_rxStep_complete hinv hu
    rw [judge_complete u hf] at hdeliver
    refine ⟨_, _, .complete f, verdictOutputs (frameVerdict f), exec_rxByte_of_rxStep hu, by simp [hout], hdeliver,
      by simp [hout], State.deliverVerdict_buf u _, State.deliverVerdict_count u _, State.deliverVerdict_rxState u _,
      State.deliverVerdict_expectedTotal u _, State.deliverVerdict_pending u _, fun h => absurd rfl (h f), ?_⟩
    rintro _ ⟨⟩
    simp only [exec_verify_checksumMismatch_iff_not_checksumOk hf, exec_verify_valid_iff_checksumOk hf,
      exec_extract_frameTooShort_iff, exec_extract_payload_iff, exec_angle_payloadOutOfRange_iff, exec_angle_angle_iff]
    refine ⟨fun hv => ?_, fun hv => ⟨fun hx => ?_, fun p hx => ⟨fun ha => ?_, fun a ha => ?_⟩⟩⟩
    · simp [frameVerdict, hv, verdictOutputs]
    · simp [frameVerdict, hv, hx, verdictOutputs]
    · simp [frameVerdict, hv, hx, ha, verdictOutputs]
    · simp [frameVerdict, hv, hx, ha, verdictOutputs]
  · rw [judge_of_not_complete u (not_exists.1 ho)] at hdeliver
    exact ⟨_, _, o, [.outcome .deliver o], exec_rxByte_of_rxStep hu, by simp [hout], hdeliver, by simp [hout],
      rfl, rfl, rfl, rfl, rfl, fun _ => rfl, fun f h => absurd ⟨f, h⟩ ho⟩

/-! ### What reaches the Actuator -/

@[simp] theorem requested_append (xs ys : List Output) : requested (xs ++ ys) = requested xs ++ requested ys := by
  induction xs with
  | nil => rfl
  | cons x xs ih => cases x <;> simp [requested, ih]

@[simp] theorem delivered_append (xs ys : List Output) : delivered (xs ++ ys) = delivered xs ++ delivered ys := by
  fun_induction delivered xs with
  | case1 => rfl
  | case2 a xs ih => simp [delivered, ih]
  | case3 x xs hx ih => simp [delivered, ih]

/-- The outputs request exactly the angles they deliver, and those are in `[1,180]` (R112). -/
def RequestsAreDelivered (os : List Output) : Prop :=
  requested os = delivered os ∧ ∀ a ∈ requested os, 1 ≤ a.toNat ∧ a.toNat ≤ 180

theorem RequestsAreDelivered.nil : RequestsAreDelivered [] := ⟨rfl, nofun⟩

theorem RequestsAreDelivered.append {xs ys : List Output} (hx : RequestsAreDelivered xs)
    (hy : RequestsAreDelivered ys) : RequestsAreDelivered (xs ++ ys) := by
  obtain ⟨hxeq, hxrange⟩ := hx
  obtain ⟨hyeq, hyrange⟩ := hy
  refine ⟨by rw [requested_append, delivered_append, hxeq, hyeq], fun a ha => ?_⟩
  rw [requested_append, List.mem_append] at ha
  exact ha.elim (hxrange a) (hyrange a)

/-- An outcome that is no angle on `deliver` asks nothing of the Actuator. -/
theorem RequestsAreDelivered.outcome {ch : OutChannel} {o : OpOutcome} (h : ch = .deliver → ∀ a, o ≠ .angle a) :
    RequestsAreDelivered [.outcome ch o] := by
  refine ⟨?_, nofun⟩
  rw [delivered]
  · rfl
  · rintro a ⟨⟩
    exact h rfl a rfl

theorem requestsAreDelivered_frameVerdict (f : Bytes) : RequestsAreDelivered (verdictOutputs (frameVerdict f)) := by
  obtain hv | hv | hv | ⟨p, a, -, ha, hv⟩ := frameVerdict_cases f <;> rw [hv]
  · exact .outcome nofun
  · exact .outcome nofun
  · exact .outcome nofun
  · exact ⟨rfl, fun _ h => List.mem_singleton.1 h ▸ angleOf_range ha⟩

/-- The outputs added between two states request exactly the angles they deliver. -/
def AddsDeliveredRequests (s t : State) : Prop := ∃ new, t.outbox = s.outbox ++ new ∧ RequestsAreDelivered new

namespace AddsDeliveredRequests

theorem refl (s : State) : AddsDeliveredRequests s s := ⟨[], (List.append_nil _).symm, .nil⟩

theorem trans {s t u : State} (hst : AddsDeliveredRequests s t) (htu : AddsDeliveredRequests t u) :
    AddsDeliveredRequests s u := by
  obtain ⟨xs, ht, hxs⟩ := hst
  obtain ⟨ys, hu, hys⟩ := htu
  exact ⟨xs ++ ys, by rw [hu, ht, List.append_assoc], hxs.append hys⟩

/-- Ending an operation whose outputs were untouched, with anything but an angle on `deliver`. -/
theorem emit {s u : State} (hout : u.outbox = s.outbox) {ch : OutChannel} {o : OpOutcome}
    (h : ch = .deliver → ∀ a, o ≠ .angle a) : AddsDeliveredRequests s (u.emit ch o) :=
  ⟨_, by rw [State.emit_outbox, hout], .outcome h⟩

theorem feed {take : Byte → State → Result State}
    (htake : ∀ {b s t}, take b s = .next t → AddsDeliveredRequests s t) {bs : Bytes} {s t : State}
    (h : feed take bs s = .next t) : AddsDeliveredRequests s t :=
  feed_keeps (P := AddsDeliveredRequests s) (fun _ _ _ hs hb => hs.trans (htake hb)) (refl s) h

end AddsDeliveredRequests

theorem exec_rxByte_addsDeliveredRequests {b : Byte} {s t : State} (h : exec (.rxByte b) s = .next t) :
    AddsDeliveredRequests s t := by
  obtain ⟨u, o, hu, rfl, -⟩ := rxStep_of_exec_rxByte h
  exact .emit (rxStep_channels hu).2 nofun

/-- The whole receive path requests the angle of a frame's verdict, and no other outcome is an angle (R110, R112). -/
theorem deliverByte_addsDeliveredRequests {b : Byte} {s t : State} (h : deliverByte b s = .next t) :
    AddsDeliveredRequests s t := by
  obtain ⟨⟨u, o⟩, hu, h⟩ := andThen_eq_next.1 h
  obtain ⟨-, hout⟩ := rxStep_channels hu
  obtain rfl | ⟨f, rfl⟩ | rfl := (rxStep_outcome hu).1
  · cases h
    exact .emit hout nofun
  · simp only [judge] at h
    split at h
    · cases h
    · cases h
      exact ⟨_, by rw [State.deliverVerdict_outbox, hout], requestsAreDelivered_frameVerdict f⟩
  · cases h
    exact .emit hout nofun

theorem exec_rxTimeout_addsDeliveredRequests {s t : State} (h : exec .rxTimeout s = .next t) :
    AddsDeliveredRequests s t := by
  by_cases hs : s.rxState = .idle
  · cases (exec_rxTimeout_of_idle hs).symm.trans h
    exact .emit rfl nofun
  · cases (exec_rxTimeout_of_ne_idle hs).symm.trans h
    exact .emit rfl nofun

theorem exec_verify_addsDeliveredRequests {f : Bytes} {s t : State} (h : exec (.verify f) s = .next t) :
    AddsDeliveredRequests s t := by
  by_cases hf : f.length < Config.lenAdjust
  · cases (verifyRefusesShortInput f s hf).symm.trans h
  · cases (exec_verify (Nat.not_lt.1 hf) s).symm.trans h
    exact .emit rfl nofun

/-- Only the receive path delivers an angle, so only it makes a request (R21, R112). -/
theorem exec_addsDeliveredRequests {i : Instr} {s t : State} (h : exec i s = .next t) :
    AddsDeliveredRequests s t := by
  cases i with
  | chk bytes => cases h; exact .emit rfl nofun
  | encode payload dest frameId => cases h; exact .emit rfl nofun
  | rxByte b => exact exec_rxByte_addsDeliveredRequests h
  | rxBlock bytes => exact .feed exec_rxByte_addsDeliveredRequests h
  | rxTimeout => exact exec_rxTimeout_addsDeliveredRequests h
  | reset => cases h; exact .emit rfl nofun
  | verify f => exact exec_verify_addsDeliveredRequests h
  | extract f => cases (exec_extract f s).symm.trans h; exact .emit rfl nofun
  | angle p => cases (exec_angle p s).symm.trans h; exact .emit rfl nofun
  | rxDeliver b => exact deliverByte_addsDeliveredRequests h
  | frameTxReq frameId dest payload => exact .feed deliverByte_addsDeliveredRequests h
  | rxbStart => exact exec_rxByte_addsDeliveredRequests (exec_rxByte_of_byteClass (.inl ⟨rfl, rfl⟩) h)
  | rxbSpurious b => exact exec_rxByte_addsDeliveredRequests (exec_rxByte_of_byteClass (.inr (.inl rfl)) h)
  | rxbLength b => exact exec_rxByte_addsDeliveredRequests (exec_rxByte_of_byteClass (.inr (.inr (.inl rfl))) h)
  | rxbBody b => exact exec_rxByte_addsDeliveredRequests (exec_rxByte_of_byteClass (.inr (.inr (.inr rfl))) h)

/-- Settles O41: a step adds nothing or runs one operation. -/
theorem actuatorRequestsAreDeliveredAngles : Obligations.ActuatorRequestsAreDeliveredAngles := by
  intro s t h
  cases hp : s.pending with
  | nil =>
    cases (step_of_no_pending hp).symm.trans h
    exact AddsDeliveredRequests.refl s
  | cons x rest =>
    cases hd : decode s.rxState x with
    | ok i =>
      rw [step_of_decode_ok hp hd] at h
      exact exec_addsDeliveredRequests (s := { s with pending := rest }) h
    | error e => cases (step_of_decode_error hp hd).symm.trans h

end Sys2Proof.Machine

/-! The encoded frame (spec/44_properties.md R120, R121): its length field announces its size, it passes `VERIFY`, and
its payload and angle are those that were encoded. -/

namespace Sys2Proof.Machine

/-- The sequence begins as a frame whose length field announces `n` bytes in all (R46, R47). -/
def Announces (f : Bytes) (n : Nat) : Prop :=
  f[0]? = some Config.startDelim ∧
    ∃ h l : Byte, f[1]? = some h ∧ f[2]? = some l ∧ (be16 h l).toNat + Config.lenAdjust = n

theorem Announces.exists_eq_cons {f : Bytes} {n : Nat} (hf : Announces f n) :
    ∃ (h l : Byte) (body : Bytes),
      f = Config.startDelim :: h :: l :: body ∧ (be16 h l).toNat + Config.lenAdjust = n := by
  obtain ⟨h0, h, l, h1, h2, hn⟩ := hf
  match f with
  | d :: h' :: l' :: body =>
    cases h0
    cases h1
    cases h2
    exact ⟨h, l, body, rfl, hn⟩

theorem Announces.lenAdjust_le {f : Bytes} {n : Nat} (hf : Announces f n) : Config.lenAdjust ≤ n := by
  obtain ⟨-, h, l, -, -, rfl⟩ := hf
  exact Nat.le_add_left _ _

/-! ### The frame that ENCODE writes -/

section EncodedFrame

variable (frameId : Byte) (dest : Dest) {p : Bytes}

@[simp] theorem length_encodeFrame : (encodeFrame frameId dest p).length = p.length + 18 :=
  RawFrame.length_words (RawFrame.encoded frameId dest p)

theorem announces_encodeFrame (hp : p.length ≤ 82) :
    Announces (encodeFrame frameId dest p) (encodeFrame frameId dest p).length := by
  have hfit : (encodeFrame frameId dest p).length ≤ Config.capacity := by
    rw [length_encodeFrame]
    exact Nat.add_le_add_right hp 18
  exact ⟨rfl, _, _, rfl, rfl, (RawFrame.lengthField_words (RawFrame.encoded frameId dest p) hfit).2 ⟨rfl, rfl⟩⟩

theorem checksumOk_encodeFrame : checksumOk (encodeFrame frameId dest p) = true :=
  (RawFrame.checksumOk_words (RawFrame.encoded frameId dest p)).2 rfl

theorem payloadOf_encodeFrame (hp : p.length ≤ 82) : payloadOf (encodeFrame frameId dest p) = some p := by
  have hdrop : (encodeFrame frameId dest p).drop Config.payloadOffset =
      p ++ [(RawFrame.encoded frameId dest p).check] :=
    RawFrame.drop_words_payloadOffset (RawFrame.encoded frameId dest p)
  rw [payloadOf_of_long (by simp), hdrop, length_encodeFrame, Nat.add_sub_cancel, min_eq_left hp, List.take_left]

/-- The verdict on an encoded frame is the verdict of `ANGLE` on its payload (R110). -/
theorem frameVerdict_encodeFrame (hp : p.length ≤ 82) :
    frameVerdict (encodeFrame frameId dest p) = (angleOf p).elim .payloadOutOfRange .angle := by
  simp only [frameVerdict, checksumOk_encodeFrame, ↓reduceIte, payloadOf_encodeFrame frameId dest hp]
  cases angleOf p <;> rfl

end EncodedFrame

/-- An encoded frame comes from a payload that fits (R71). -/
theorem eq_encodeFrame_of_exec_encode {p w : Bytes} {dest : Dest} {frameId : Byte} {s : State}
    (h : exec (.encode p dest frameId) s = .next (s.emit .encRsp (.encoded w))) :
    p.length ≤ 82 ∧ w = encodeFrame frameId dest p := by
  have hp : p.length + 18 ≤ 100 := (encodeSucceedsIffItFits p dest frameId s).1.1 ⟨w, h⟩
  rw [exec_encode_of_fits hp] at h
  have hw : encodeFrame frameId dest p = w := by simpa [State.emit_inj] using h
  exact ⟨Nat.le_of_add_le_add_right hp, hw.symm⟩

/-- Settles O52: the frame's payload is read from where the encoder wrote it. -/
theorem payloadRoundTrip : Obligations.PayloadRoundTrip := fun _ dest frameId s hp =>
  ⟨_, exec_encode_of_fits (Nat.add_le_add_right hp 18) dest frameId s,
    exec_extract_payload_iff.2 (payloadOf_encodeFrame frameId dest hp)⟩

/-- Settles O53: an encoded frame is the encoder's words of a payload that fits. -/
theorem encodedFramesAreValid : Obligations.EncodedFramesAreValid := by
  intro p dest frameId w s h
  obtain ⟨hp, rfl⟩ := eq_encodeFrame_of_exec_encode h
  obtain ⟨hdelim, hlength⟩ := announces_encodeFrame frameId dest hp
  have hlen := length_encodeFrame frameId dest (p := p)
  exact ⟨hdelim, hlength, by omega, by omega,
    (exec_verify_valid_iff_checksumOk (by simp)).2 (checksumOk_encodeFrame frameId dest)⟩

/-- Settles O56: the reading of each payload, evaluated. -/
theorem rangeRejectionCases : Obligations.RangeRejectionCases := fun _ =>
  ⟨exec_angle_payloadOutOfRange_iff.2 rfl, exec_angle_payloadOutOfRange_iff.2 rfl,
    exec_angle_payloadOutOfRange_iff.2 rfl, exec_angle_angle_iff.2 rfl, exec_angle_angle_iff.2 rfl⟩

end Sys2Proof.Machine

/-! A frame on its way into a fresh receiver (spec/44_properties.md R122 to R128). While bytes arrive, the accumulated
part of `buf` is the frame's beginning, so the frame ends on the byte that its own length field announces, or on the
100th. Stated for any operation that takes a byte through the receiver's step, it serves `RX_BYTE` and `RX_DELIVER`. -/

namespace Sys2Proof.Machine

/-! ### The bytes accumulated so far -/

/-- The architectural part `buf[0 .. count-1]` holds the bytes `f` (R33). -/
def State.Holds (s : State) (f : Bytes) : Prop := s.readBytes 0 s.count.toNat = some f

theorem State.holds_iff {s : State} {f : Bytes} :
    s.Holds f ↔ f.length = s.count.toNat ∧ ∀ k < f.length, s.buf.read k = f[k]? := by
  simp only [State.Holds, readBytes_eq_some, Nat.zero_add, le_refl, true_and]
  exact and_congr_right fun hlen => by rw [hlen]

theorem State.cleared_holds_nil (s : State) : s.cleared.Holds [] := rfl

/-- The append adds its byte to what is held (R81). -/
theorem State.Holds.appended {s : State} {f : Bytes} (h : s.Holds f) (hc : s.count.toNat < Config.capacity) (b : Byte) :
    (s.appended b).Holds (f ++ [b]) := by
  obtain ⟨hlen, hread⟩ := State.holds_iff.1 h
  refine State.holds_iff.2 ⟨?_, fun k hk => ?_⟩
  · rw [State.appended_count, count_succ_toNat hc, List.length_append, hlen, List.length_singleton]
  · rw [List.length_append, List.length_singleton] at hk
    obtain hk | rfl := Nat.lt_succ_iff_lt_or_eq.1 hk
    · rw [read_appended_of_lt (hlen ▸ hk), hread k hk, List.getElem?_append_left hk]
    · rw [State.appended_buf, hlen, Memory.read_write_same, ← hlen, List.getElem?_concat_length]

/-- The receiver is in the length field of a frame that has begun with `f` (R14). -/
structure State.InLength (s : State) (f : Bytes) : Prop where
  rxState : s.rxState = .accLen
  holds : s.Holds f

/-- The receiver is in the body of a frame that announced `n` bytes and has begun with `f` (R14, R83). -/
structure State.InBody (s : State) (f : Bytes) (n : Nat) : Prop where
  rxState : s.rxState = .accPay
  holds : s.Holds f
  total : ∃ e, s.expectedTotal = some e ∧ e.toNat = n

theorem State.InLength.emit {s : State} {f : Bytes} (h : s.InLength f) (ch : OutChannel) (o : OpOutcome) :
    (s.emit ch o).InLength f :=
  ⟨h.rxState, h.holds⟩

theorem State.InBody.emit {s : State} {f : Bytes} {n : Nat} (h : s.InBody f n) (ch : OutChannel) (o : OpOutcome) :
    (s.emit ch o).InBody f n :=
  ⟨h.rxState, h.holds, h.total⟩

/-- The delimiter begins a frame (R82). -/
theorem State.Fresh.exists_rxStep_startDelim {s : State} (hs : s.Fresh) :
    ∃ t, rxStep Config.startDelim s = .next (t, .none) ∧ t.InLength [Config.startDelim] := by
  obtain ⟨hidle, -⟩ := hs
  exact ⟨_, rxStep_startDelim hidle, rfl, s.cleared_holds_nil.appended (by simp) _⟩

/-- The first length byte is held (R83). -/
theorem State.InLength.exists_rxStep_high {s : State} {d : Byte} (hs : s.InLength [d]) (h : Byte) :
    ∃ t, rxStep h s = .next (t, .none) ∧ t.InLength [d, h] := by
  obtain ⟨hlen, -⟩ := State.holds_iff.1 hs.holds
  have hc : s.count.toNat < Config.capacity := by simp [← hlen]
  exact ⟨_, rxStep_length_of_ne hs.rxState hc (by simp [← hlen]), hs.rxState, hs.holds.appended hc h⟩

/-- The second length byte announces the size of the frame (R83). -/
theorem State.InLength.exists_rxStep_low {s : State} {d h : Byte} (hs : s.InLength [d, h]) (l : Byte) :
    ∃ t, rxStep l s = .next (t, .none) ∧ t.InBody [d, h, l] ((be16 h l).toNat + Config.lenAdjust) := by
  obtain ⟨hlen, -⟩ := State.holds_iff.1 hs.holds
  have hholds : (s.appended l).Holds [d, h, l] := hs.holds.appended (by simp [← hlen]) l
  obtain ⟨hlen', hread⟩ := State.holds_iff.1 hholds
  have htotal := announcedTotal_eq hlen'.le (hread 1 (by simp)) (hread 2 (by simp))
  exact ⟨_, rxStep_length_of_eq hs.rxState (by simp [← hlen]) htotal, rfl, hholds, _, rfl, announcedTotal_toNat _⟩

/-- A body byte ends the frame at its announced size, or at the capacity, or is held (R84 to R86). -/
theorem State.InBody.rxStep_eq {s : State} {f : Bytes} {n : Nat} (h : s.InBody f n) (hc : f.length < 100) (b : Byte) :
    rxStep b s =
      if n ≤ f.length + 1 then .next ((s.appended b).toIdle, .complete (f ++ [b]))
      else if f.length + 1 = 100 then .next ((s.appended b).toIdle, .overflow)
      else .next (s.appended b, .none) := by
  obtain ⟨hs, hholds, e, he, rfl⟩ := h
  obtain ⟨hlen, -⟩ := State.holds_iff.1 hholds
  rw [hlen] at hc ⊢
  have hread := hholds.appended hc b
  rw [State.Holds, State.appended_count, count_succ_toNat hc] at hread
  exact rxStep_body hs hc he hread

theorem State.InBody.appended {s : State} {f : Bytes} {n : Nat} (h : s.InBody f n) (hc : f.length < 100) (b : Byte) :
    (s.appended b).InBody (f ++ [b]) n := by
  obtain ⟨hs, hholds, htotal⟩ := h
  obtain ⟨hlen, -⟩ := State.holds_iff.1 hholds
  exact ⟨hs, hholds.appended (hlen ▸ hc) b, htotal⟩

/-! ### Feeds with what they hand out -/

/-- Feeding the bytes leads from `s` to `t` and hands out `os`. -/
structure Feeds (take : Byte → State → Result State) (bytes : Bytes) (s t : State) (os : List Output) : Prop where
  feed_eq : feed take bytes s = .next t
  outbox_eq : t.outbox = s.outbox ++ os

namespace Feeds

variable {take : Byte → State → Result State} {xs ys : Bytes} {s t u : State} {os os' : List Output}

theorem nil : Feeds take [] s s [] := ⟨rfl, (List.append_nil _).symm⟩

theorem append (hx : Feeds take xs s t os) (hy : Feeds take ys t u os') : Feeds take (xs ++ ys) s u (os ++ os') := by
  obtain ⟨hxs, ht⟩ := hx
  obtain ⟨hys, hu⟩ := hy
  exact ⟨by rw [feed_append, hxs, andThen_next, hys], by rw [hu, ht, List.append_assoc]⟩

/-- One byte: the receiver's step leaves the outputs alone, and what follows it adds to them. -/
theorem singleton {b : Byte} {o : OpOutcome} (hstep : rxStep b s = .next (t, o)) (h : take b s = .next u)
    (hout : u.outbox = t.outbox ++ os) : Feeds take [b] s u os :=
  ⟨by rw [feed_cons, h, andThen_next, feed_nil], by rw [hout, (rxStep_channels hstep).2]⟩

theorem outbox_append (h : Feeds take xs s t (os ++ os')) : t.outbox = s.outbox ++ os ++ os' := by
  rw [h.outbox_eq, List.append_assoc]

end Feeds

/-- An operation that takes a byte through the receiver's step and hands out `None` on the channel when the step
does. -/
def HandsOutNone (take : Byte → State → Result State) (ch : OutChannel) : Prop :=
  ∀ {b s t}, rxStep b s = .next (t, .none) → take b s = .next (t.emit ch .none)

theorem handsOutNone_rxByte : HandsOutNone execRxByte .rxEvt := exec_rxByte_of_rxStep

theorem handsOutNone_rxDeliver : HandsOutNone execRxDeliver .deliver := exec_rxDeliver_of_rxStep

/-- One `None` for each of `n` bytes. -/
abbrev nones (ch : OutChannel) (n : Nat) : List Output := List.replicate n (.outcome ch .none)

section Run

variable {take : Byte → State → Result State} {ch : OutChannel} (htake : HandsOutNone take ch) {s : State}
include htake

theorem Feeds.none {b : Byte} {t : State} (h : rxStep b s = .next (t, .none)) :
    Feeds take [b] s (t.emit ch .none) (nones ch 1) :=
  .singleton h (htake h) rfl

/-- `None` for the first byte and then for each of `n` more. -/
theorem Feeds.cons_nones {b : Byte} {bytes : Bytes} {t u : State} {n : Nat} (h : rxStep b s = .next (t, .none))
    (hrest : Feeds take bytes (t.emit ch .none) u (nones ch n)) : Feeds take (b :: bytes) s u (nones ch (n + 1)) := by
  have hfeeds := (Feeds.none htake h).append hrest
  rwa [List.replicate_append_replicate, Nat.add_comm 1] at hfeeds

/-- Noise without a delimiter leaves a fresh receiver fresh (R82, R123). -/
theorem feeds_noise {z : Bytes} (hs : s.Fresh) (hz : ∀ b ∈ z, b ≠ Config.startDelim) :
    ∃ t, Feeds take z s t (nones ch z.length) ∧ t.Fresh := by
  induction z generalizing s with
  | nil => exact ⟨s, .nil, hs⟩
  | cons b z ih =>
    obtain ⟨hb, hz⟩ := List.forall_mem_cons.1 hz
    obtain ⟨hidle, -⟩ := hs
    obtain ⟨t, hfeeds, ht⟩ := ih (s := s.cleared.emit ch .none) ⟨hidle, rfl, rfl⟩ hz
    exact ⟨t, hfeeds.cons_nones htake (rxStep_spurious hidle hb), ht⟩

/-- The delimiter and the two length bytes bring a fresh receiver into the body of the frame they announce
(R82, R83). -/
theorem feeds_header (hs : s.Fresh) (h l : Byte) :
    ∃ t, Feeds take [Config.startDelim, h, l] s t (nones ch 3) ∧
      t.InBody [Config.startDelim, h, l] ((be16 h l).toNat + Config.lenAdjust) := by
  obtain ⟨s₁, hstep₁, h₁⟩ := hs.exists_rxStep_startDelim
  obtain ⟨s₂, hstep₂, h₂⟩ := (h₁.emit ch .none).exists_rxStep_high h
  obtain ⟨s₃, hstep₃, h₃⟩ := (h₂.emit ch .none).exists_rxStep_low l
  exact ⟨_, .cons_nones htake hstep₁ (.cons_nones htake hstep₂ (.none htake hstep₃)), h₃.emit ch .none⟩

/-- Body bytes short of the announced size and of the capacity are held (R86). -/
theorem feeds_body {f body : Bytes} {n : Nat} (hs : s.InBody f n) (hn : (f ++ body).length < n)
    (hc : (f ++ body).length < 100) :
    ∃ t, Feeds take body s t (nones ch body.length) ∧ t.InBody (f ++ body) n := by
  induction body generalizing s f with
  | nil => exact ⟨s, .nil, by rwa [List.append_nil]⟩
  | cons b body ih =>
    rw [List.append_cons] at hn hc ⊢
    have hlen : f.length + 1 ≤ (f ++ [b] ++ body).length := by simp
    have hroom : f.length < 100 := Nat.lt_of_succ_le (hlen.trans hc.le)
    have hstep := hs.rxStep_eq hroom b
    rw [if_neg (hlen.trans_lt hn).not_ge, if_neg (hlen.trans_lt hc).ne] at hstep
    obtain ⟨t, hfeeds, ht⟩ := ih ((hs.appended hroom b).emit ch .none) hn hc
    exact ⟨t, hfeeds.cons_nones htake hstep, ht⟩

/-- The beginning of a frame, short of its announced size and of the capacity, gives `None` for every byte and leaves
the receiver in the body of the frame. -/
theorem feeds_beginning {h l : Byte} {body : Bytes} {n : Nat} (hs : s.Fresh)
    (hn : (be16 h l).toNat + Config.lenAdjust = n) (hlen : body.length + 3 < n) (hc : body.length + 3 < 100) :
    ∃ t, Feeds take (Config.startDelim :: h :: l :: body) s t (nones ch (body.length + 3)) ∧
      t.InBody (Config.startDelim :: h :: l :: body) n := by
  obtain ⟨t, hheader, ht⟩ := feeds_header htake hs h l
  obtain ⟨u, hbody, hu⟩ := feeds_body htake (f := [Config.startDelim, h, l]) (hn ▸ ht) hlen hc
  have hfeeds := hheader.append hbody
  rw [List.replicate_append_replicate, Nat.add_comm 3] at hfeeds
  exact ⟨u, hfeeds, hu⟩

/-- A frame fed to a fresh receiver gives `None` until its last byte: the one that its length field announces, on which
the receiver's step completes it, or else the 100th, on which the step overflows. -/
theorem feeds_frame {f : Bytes} {n : Nat} (hs : s.Fresh) (hf : Announces f n) (hlen : f.length = min n 100) :
    ∃ init b t u, f = init ++ [b] ∧ Feeds take init s t (nones ch (f.length - 1)) ∧
      rxStep b t = .next (u, if n ≤ 100 then .complete f else .overflow) ∧ u.Fresh := by
  obtain ⟨h, l, body, rfl, hn⟩ := hf.exists_eq_cons
  simp only [List.length_cons, Config.lenAdjust] at hlen hn
  obtain rfl | ⟨body, b, rfl⟩ := List.eq_nil_or_concat' body
  · rw [List.length_nil] at hlen
    omega
  rw [List.length_append, List.length_singleton] at hlen
  obtain ⟨t, hfeeds, ht⟩ := feeds_beginning htake (body := body) hs hn (by omega) (by omega)
  have hstep := ht.rxStep_eq (by simp; omega) b
  refine ⟨Config.startDelim :: h :: l :: body, b, t, (t.appended b).toIdle, rfl, ?_, ?_, State.toIdle_fresh _⟩
  · simpa using hfeeds
  · rw [hstep]
    simp only [List.length_cons, hlen]
    by_cases hfits : n ≤ 100
    · rw [if_pos hfits, if_pos (by omega)]
      rfl
    · rw [if_neg hfits, if_neg (by omega), if_pos (by omega)]

end Run

/-! ### RX_BLOCK -/

/-- The bytes fed with `RX_BYTE` are a block (R88). -/
theorem exec_rxBlock_of_feeds {bytes : Bytes} {s t : State} {os : List Output}
    (h : Feeds execRxByte bytes s t os) : exec (.rxBlock bytes) s = .next t := h.feed_eq

/-- A frame fed with `RX_BYTE` ends with `Complete` of it, or with `Overflow` when it announced more than 100 bytes. -/
theorem feeds_rxByte_frame {s : State} {f : Bytes} {n : Nat} (hs : s.Fresh) (hf : Announces f n)
    (hlen : f.length = min n 100) :
    ∃ t, Feeds execRxByte f s t
      (nones .rxEvt (f.length - 1) ++ [.outcome .rxEvt (if n ≤ 100 then .complete f else .overflow)]) ∧ t.Fresh := by
  obtain ⟨init, b, t, u, rfl, hinit, hstep, hu⟩ := feeds_frame handsOutNone_rxByte hs hf hlen
  exact ⟨_, hinit.append (.singleton hstep (exec_rxByte_of_rxStep hstep) rfl), hu⟩

/-- A frame that announces its own size and fits is received (R122). -/
theorem feeds_rxByte_complete {s : State} {f : Bytes} (hs : s.Fresh) (hf : Announces f f.length)
    (hfit : f.length ≤ 100) :
    ∃ t, Feeds execRxByte f s t
      (nones .rxEvt (f.length - 1) ++ [.outcome .rxEvt (.complete f)]) ∧ t.Fresh := by
  have hframe := feeds_rxByte_frame hs hf (min_eq_left hfit).symm
  rwa [if_pos hfit] at hframe

/-- Noise and then an encoded frame (R123). -/
theorem feeds_rxByte_noise_encodeFrame {s : State} {z p : Bytes} (hs : s.Fresh) (hz : ∀ b ∈ z, b ≠ Config.startDelim)
    (hp : p.length ≤ 82) (dest : Dest) (frameId : Byte) :
    ∃ t, Feeds execRxByte (z ++ encodeFrame frameId dest p) s t
      (nones .rxEvt (z.length + (encodeFrame frameId dest p).length - 1) ++
        [.outcome .rxEvt (.complete (encodeFrame frameId dest p))]) ∧ t.Fresh := by
  have hlen := length_encodeFrame frameId dest (p := p)
  obtain ⟨t, hnoise, ht⟩ := feeds_noise handsOutNone_rxByte hs hz
  obtain ⟨u, hframe, hu⟩ := feeds_rxByte_complete ht (announces_encodeFrame frameId dest hp) (by omega)
  have hfeeds := hnoise.append hframe
  rw [← List.append_assoc, List.replicate_append_replicate, ← Nat.add_sub_assoc (by omega)] at hfeeds
  exact ⟨u, hfeeds, hu⟩

/-- Settles O54: the noise leaves the receiver fresh, and a fresh receiver takes the frame. -/
theorem noiseThenFrameIsReceived : Obligations.NoiseThenFrameIsReceived := by
  intro z p dest frameId s hs hz hp
  obtain ⟨t, hfeeds, ht⟩ := feeds_rxByte_noise_encodeFrame hs hz hp dest frameId
  exact ⟨_, t, exec_encode_of_fits (Nat.add_le_add_right hp 18) dest frameId s, exec_rxBlock_of_feeds hfeeds, ht,
    hfeeds.outbox_append⟩

/-- Settles O55: the first 100 bytes are a frame that overflows; what follows it meets a fresh receiver, as in O54. -/
theorem oversizeFrameOverflows : Obligations.OversizeFrameOverflows := by
  intro bytes h l s hs h0 h1 h2 hbig hlong
  have hlen : (bytes.take 100).length = 100 := by simpa using hlong
  have hannounces : Announces (bytes.take 100) ((be16 h l).toNat + 4) :=
    ⟨by simpa using h0, h, l, by simpa using h1, by simpa using h2, rfl⟩
  obtain ⟨t, hfirst, ht⟩ := feeds_rxByte_frame hs hannounces (hlen.trans (min_eq_right hbig.le).symm)
  rw [hlen, if_neg hbig.not_ge] at hfirst
  refine ⟨⟨t, exec_rxBlock_of_feeds hfirst, ht, hfirst.outbox_append⟩,
    fun hrest p dest frameId hp => ?_⟩
  obtain ⟨v, hafter, hv⟩ := feeds_rxByte_noise_encodeFrame ht hrest hp dest frameId
  have hall := hfirst.append hafter
  rw [← List.append_assoc, List.take_append_drop, ← List.append_assoc] at hall
  exact ⟨_, v, exec_encode_of_fits (Nat.add_le_add_right hp 18) dest frameId s, exec_rxBlock_of_feeds hall, hv,
    _, hall.outbox_append⟩

/-- Settles O58: an emitted frame announces its own size and fits (O57), which is all a fresh receiver needs. -/
theorem emittedFramesReparse : Obligations.EmittedFramesReparse := by
  intro s t u b f hinv h hout hu
  obtain ⟨hdelim, hlength, -, -, hfit⟩ := emittedFramesAreLengthValidated s t b f hinv h hout
  obtain ⟨v, hfeeds, hv⟩ := feeds_rxByte_complete hu ⟨hdelim, hlength⟩ hfit
  exact ⟨v, exec_rxBlock_of_feeds hfeeds, hv, hfeeds.outbox_append⟩

/-! ### The whole receive path -/

/-- Handing a verdict out leaves the accumulator alone. -/
theorem State.Fresh.deliverVerdict {s : State} (hs : s.Fresh) (o : OpOutcome) : (s.deliverVerdict o).Fresh := by
  obtain ⟨hidle, hcount, htotal⟩ := hs
  exact ⟨(State.deliverVerdict_rxState s o).trans hidle, (State.deliverVerdict_count s o).trans hcount,
    (State.deliverVerdict_expectedTotal s o).trans htotal⟩

/-- A frame that announces its own size and fits is judged on its last byte (R110). -/
theorem feeds_rxDeliver_frame {s : State} {f : Bytes} (hs : s.Fresh) (hf : Announces f f.length)
    (hfit : f.length ≤ 100) :
    ∃ t, Feeds execRxDeliver f s t
      (nones .deliver (f.length - 1) ++ verdictOutputs (frameVerdict f)) ∧ t.Fresh := by
  obtain ⟨init, b, t, u, rfl, hinit, hstep, hu⟩ :=
    feeds_frame handsOutNone_rxDeliver hs hf (min_eq_left hfit).symm
  rw [if_pos hfit] at hstep
  have hjudged := (exec_rxDeliver_of_rxStep hstep).trans (judge_complete u hf.lenAdjust_le)
  exact ⟨_, hinit.append (.singleton hstep hjudged (State.deliverVerdict_outbox u _)), hu.deliverVerdict _⟩

/-- Settles O59: the verdict on an encoded frame is `ANGLE`'s on its payload. -/
theorem frameDeliversItsAngle : Obligations.FrameDeliversItsAngle := by
  intro p dest frameId s hs hp
  have hlen := length_encodeFrame frameId dest (p := p)
  obtain ⟨t, hfeeds, ht⟩ := feeds_rxDeliver_frame hs (announces_encodeFrame frameId dest hp) (by omega)
  rw [frameVerdict_encodeFrame frameId dest hp] at hfeeds
  refine ⟨_, t, _, exec_encode_of_fits (Nat.add_le_add_right hp 18) dest frameId s, hfeeds.feed_eq, ht,
    hfeeds.outbox_append, ?_, fun hrange => ?_⟩
  · rintro _ hnil hdigits rfl hmin hmax
    have hangle := (angleOf_eq_ite p).trans (if_pos ⟨hnil, hdigits, hmin, hmax⟩)
    rw [hangle]
    rfl
  · rw [exec_angle_payloadOutOfRange_iff.1 hrange]
    rfl

end Sys2Proof.Machine

/-! Errors and coincident events (spec/60_exceptions.md R135 to R143). An error is an outcome like any other: on the
receiver side every outcome but `None` leaves a fresh receiver, and the encoder side hands nothing out on the channels of
the receive path. -/

namespace Sys2Proof.Machine

/-! ### The status codes (R136) -/

/-- An outcome that reports no error has code 0 (R136). -/
theorem statusCode_of_not_error {o : OpOutcome} (h : errorOf o = none) : statusCode o = 0 := by
  simp only [statusCode, h]

/-- Settles O44: None and the successes report no error; the six errors by their rows. -/
theorem statusCodes : Obligations.StatusCodes :=
  ⟨⟨statusCode_of_not_error rfl, statusCode_of_not_error rfl, fun _ _ =>
      ⟨statusCode_of_not_error rfl, statusCode_of_not_error rfl, statusCode_of_not_error rfl,
        statusCode_of_not_error rfl, statusCode_of_not_error rfl⟩⟩,
    rfl, rfl, rfl, rfl, rfl, rfl⟩

/-! ### Events of one cycle (R141) -/

/-- With nothing waiting, the one transaction presented is the next step's. -/
theorem step_present_singleton {s : State} (hs : s.pending = []) {x : Transaction} {i : Instr}
    (hx : decode s.rxState x = .ok i) : step (s.present [x]) = exec i s := by
  have hwaiting : (s.present [x]).pending = [x] := by rw [State.present_pending, hs, List.nil_append]
  have htaken : { s.present [x] with pending := [] } = s := by rw [State.present, ← hs]
  rw [step_of_decode_ok hwaiting hx, htaken]

theorem present_nil (s : State) : s.present [] = s := by
  rw [State.present, List.append_nil]

/-- Settles O38: what `arbitrate` leaves is one transaction, which the step takes, or none. -/
theorem coincidentEventsOrdered : Obligations.CoincidentEventsOrdered := by
  intro s byte timeout b hs
  refine ⟨step_present_singleton hs rfl, step_present_singleton hs rfl, step_present_singleton hs rfl, ?_⟩
  have hnone : s.present (arbitrate ⟨false, none, false⟩) = s := present_nil s
  rw [hnone, step_of_no_pending hs]

/-! ### The accumulator after an error (R143) -/

/-- A receiver step with an outcome other than `None` has emptied the accumulator (R84, R85). -/
theorem rxStep_fresh_of_ne_none {b : Byte} {s u : State} {o : OpOutcome} (h : rxStep b s = .next (u, o))
    (ho : o ≠ .none) : u.Fresh := by
  obtain ⟨-, -, -, hnone⟩ | ⟨-, -, -, hnone⟩ | ⟨-, -, -, -, hnone⟩ | ⟨-, -, e, -, -, hnone⟩ |
    ⟨-, -, e, f, -, -, -, rfl, -⟩ | ⟨-, -, e, -, -, rfl, -⟩ | ⟨-, -, e, -, -, -, hnone⟩ := rxStep_cases h
  · exact absurd hnone ho
  · exact absurd hnone ho
  · exact absurd hnone ho
  · exact absurd hnone ho
  · exact State.toIdle_fresh _
  · exact State.toIdle_fresh _
  · exact absurd hnone ho

section ReceiverSide

variable {b : Byte} {s t : State} {ch : OutChannel} {o : OpOutcome}

theorem exec_rxByte_fresh_of_ne_none (h : exec (.rxByte b) s = .next t)
    (hout : t.outbox = s.outbox ++ [.outcome ch o]) (ho : o ≠ .none) : t.Fresh := by
  obtain ⟨u, o', hu, rfl, hrx⟩ := rxStep_of_exec_rxByte h
  obtain ⟨-, rfl⟩ : .rxEvt = ch ∧ o' = o := by simpa using hrx.symm.trans hout
  exact (rxStep_fresh_of_ne_none hu ho :)

/-- The verdict on a Complete frame finds the accumulator empty, and leaves it so (R110). -/
theorem exec_rxDeliver_fresh_of_ne_none (h : exec (.rxDeliver b) s = .next t)
    (hout : t.outbox = s.outbox ++ [.outcome ch o]) (ho : o ≠ .none) : t.Fresh := by
  obtain ⟨⟨u, o'⟩, hu, hjudge⟩ := andThen_eq_next.1 h
  by_cases ho' : o' = .none
  · subst ho'
    cases hjudge
    obtain ⟨-, hnone⟩ : .deliver = ch ∧ .none = o := by simpa [(rxStep_channels hu).2] using hout
    exact absurd hnone.symm ho
  · obtain ⟨os, rfl⟩ := judge_eq_withChannels hjudge
    exact (rxStep_fresh_of_ne_none hu ho' :)

theorem exec_rxTimeout_fresh_of_ne_none (h : exec .rxTimeout s = .next t)
    (hout : t.outbox = s.outbox ++ [.outcome ch o]) (ho : o ≠ .none) : t.Fresh := by
  by_cases hs : s.rxState = .idle
  · cases (exec_rxTimeout_of_idle hs).symm.trans h
    obtain ⟨-, hnone⟩ : .rxEvt = ch ∧ .none = o := by simpa using hout
    exact absurd hnone.symm ho
  · cases (exec_rxTimeout_of_ne_idle hs).symm.trans h
    exact s.toIdle_fresh

/-- On the receiver side an outcome other than `None` leaves a fresh receiver (R143; R84 for a Complete frame). -/
theorem exec_fresh_of_ne_none {i : Instr} (hi : singleOutcome i = true) (hside : encoderSide i = false)
    (h : exec i s = .next t) (hout : t.outbox = s.outbox ++ [.outcome ch o]) (ho : o ≠ .none) : t.Fresh := by
  cases i with
  | rxByte b => exact exec_rxByte_fresh_of_ne_none h hout ho
  | rxTimeout => exact exec_rxTimeout_fresh_of_ne_none h hout ho
  | reset =>
    cases h
    exact s.toIdle_fresh
  | rxDeliver b => exact exec_rxDeliver_fresh_of_ne_none h hout ho
  | rxbStart =>
    exact exec_rxByte_fresh_of_ne_none (exec_rxByte_of_byteClass (.inl ⟨rfl, rfl⟩) h) hout ho
  | rxbSpurious b => exact exec_rxByte_fresh_of_ne_none (exec_rxByte_of_byteClass (.inr (.inl rfl)) h) hout ho
  | rxbLength b =>
    exact exec_rxByte_fresh_of_ne_none (exec_rxByte_of_byteClass (.inr (.inr (.inl rfl))) h) hout ho
  | rxbBody b =>
    exact exec_rxByte_fresh_of_ne_none (exec_rxByte_of_byteClass (.inr (.inr (.inr rfl))) h) hout ho
  | rxBlock bytes => cases hi
  | frameTxReq frameId dest payload => cases hi
  | _ => cases hside

end ReceiverSide

/-- The encoder side hands its outcome out elsewhere than on the channels of the receive path (R19). -/
theorem channel_of_encoderSide {i : Instr} {s t : State} {ch : OutChannel} {o : OpOutcome} (hi : encoderSide i = true)
    (h : exec i s = .next t) (hout : t.outbox = s.outbox ++ [.outcome ch o]) : ¬ (ch = .rxEvt ∨ ch = .deliver) := by
  suffices hch : ∃ ch' o', (ch' ≠ .rxEvt ∧ ch' ≠ .deliver) ∧ t = s.emit ch' o' by
    obtain ⟨ch', o', hne, rfl⟩ := hch
    obtain ⟨rfl, -⟩ : ch' = ch ∧ o' = o := by simpa using hout
    exact not_or.2 hne
  cases i with
  | chk bytes =>
    cases (exec_chk bytes s).symm.trans h
    exact ⟨.chkRsp, _, ⟨nofun, nofun⟩, rfl⟩
  | encode payload dest frameId =>
    cases (exec_encode payload dest frameId s).symm.trans h
    exact ⟨.encRsp, _, ⟨nofun, nofun⟩, rfl⟩
  | verify f =>
    by_cases hlen : f.length < Config.lenAdjust
    · cases (verifyRefusesShortInput f s hlen).symm.trans h
    · cases (exec_verify (Nat.not_lt.1 hlen) s).symm.trans h
      exact ⟨.caller, _, ⟨nofun, nofun⟩, rfl⟩
  | extract f =>
    cases (exec_extract f s).symm.trans h
    exact ⟨.caller, _, ⟨nofun, nofun⟩, rfl⟩
  | angle p =>
    cases (exec_angle p s).symm.trans h
    exact ⟨.caller, _, ⟨nofun, nofun⟩, rfl⟩
  | _ => cases hi

/-- The one outcome seen is one that R17 and R50 give the operation. -/
theorem mayEndWith_of_outbox {i : Instr} {s t : State} {ch : OutChannel} {o : OpOutcome} (hi : singleOutcome i = true)
    (h : exec i s = .next t) (hout : t.outbox = s.outbox ++ [.outcome ch o]) : mayEndWith i o := by
  obtain ⟨ch', o', hmay, hone | ⟨a, -, htwo⟩⟩ := exactlyOneOutcome i s t hi h
  · obtain ⟨-, rfl⟩ : ch' = ch ∧ o' = o := by simpa using hone.symm.trans hout
    exact hmay
  · simp [hout] at htwo

/-- Only `ENCODE` ends with `OversizePayload` (R50). -/
theorem encoderSide_of_mayEndWith_oversizePayload {i : Instr} (h : mayEndWith i .oversizePayload) :
    encoderSide i = true := by
  cases i with
  | encode payload dest frameId => rfl
  | _ => simp [mayEndWith] at h

/-- Settles O43: an error on the receive path comes from the receiver side, where it is not `None`; `OversizePayload`
comes from the encoder side, which keeps the accumulator. -/
theorem errorsAreRecoveredLocally : Obligations.ErrorsAreRecoveredLocally := by
  intro i s t ch o hi h hout
  refine ⟨fun hch herr => ?_, ?_⟩
  · have hside : encoderSide i = false := by
      by_contra hside
      exact channel_of_encoderSide (eq_true_of_ne_false hside) h hout hch
    have ho : o ≠ .none := by
      rintro rfl
      simp at herr
    exact exec_fresh_of_ne_none hi hside h hout ho
  · rintro rfl
    have hside := encoderSide_of_mayEndWith_oversizePayload (mayEndWith_of_outbox hi h hout)
    obtain ⟨hkept, -⟩ := encoderSideFrame i s t hside h
    exact hkept

end Sys2Proof.Machine

/-! Reset, and the end of every frame (spec/70_reset_and_hazards.md R160, R168). Inside a frame each byte either empties
the receiver or raises the count, and the count stays below `CAPACITY`: so no frame, true or false, goes on for ever. -/

namespace Sys2Proof.Machine

theorem exec_reset (s : State) : exec .reset s = .next (s.toIdle.emit .caller .none) := rfl

/-- Settles O37: by the equation of the operation, which leaves `buf` and the waiting transactions alone. -/
theorem resetOperation : Obligations.ResetOperation := fun s =>
  ⟨_, exec_reset s, rfl, rfl, rfl, fun _ => rfl, rfl, .caller, rfl⟩

/-- At rest the buffer has room for one more byte (R14). -/
theorem count_lt_capacity_of_inv {s : State} (hinv : s.Inv) : s.count.toNat < Config.capacity := by
  obtain ⟨-, -, -, hidle, hlen, hpay⟩ := hinv
  cases hs : s.rxState with
  | idle =>
    obtain ⟨hcount, -⟩ := hidle hs
    simp [hcount]
  | accLen =>
    obtain ⟨-, h2, -⟩ := hlen hs
    exact Nat.lt_of_le_of_lt h2 (by decide)
  | accPay =>
    obtain ⟨-, hroom, -⟩ := hpay hs
    exact hroom

/-- A byte inside a frame ends the frame, or the frame goes on with a count one higher (R83 to R86). -/
theorem rxStep_fresh_or_count_succ {b : Byte} {s u : State} {o : OpOutcome} (hs : s.rxState ≠ .idle)
    (hc : s.count.toNat < Config.capacity) (h : rxStep b s = .next (u, o)) :
    u.Fresh ∨ (u.rxState ≠ .idle ∧ u.count.toNat = s.count.toNat + 1) := by
  have hcount : (s.appended b).count.toNat = s.count.toNat + 1 := count_succ_toNat hc
  obtain ⟨hidle, -⟩ | ⟨hidle, -⟩ | ⟨-, -, -, rfl, -⟩ | ⟨-, -, e, -, rfl, -⟩ | ⟨-, -, e, f, -, -, -, rfl, -⟩ |
    ⟨-, -, e, -, -, rfl, -⟩ | ⟨-, -, e, -, -, rfl, -⟩ := rxStep_cases h
  · exact absurd hidle hs
  · exact absurd hidle hs
  · exact .inr ⟨hs, hcount⟩
  · exact .inr ⟨nofun, hcount⟩
  · exact .inl (State.toIdle_fresh _)
  · exact .inl (State.toIdle_fresh _)
  · exact .inr ⟨hs, hcount⟩

theorem exec_rxByte_fresh_or_count_succ {b : Byte} {s t : State} (hs : s.rxState ≠ .idle)
    (hc : s.count.toNat < Config.capacity) (h : exec (.rxByte b) s = .next t) :
    t.Fresh ∨ (t.rxState ≠ .idle ∧ t.count.toNat = s.count.toNat + 1) := by
  obtain ⟨u, o, hu, rfl, -⟩ := rxStep_of_exec_rxByte h
  exact (rxStep_fresh_or_count_succ hs hc hu :)

/-- Settles O60, by induction on the bytes: a byte that does not end the frame uses up one byte of the room left, and with
no byte left the count would be `CAPACITY`, where no frame is at rest. -/
theorem everyFrameEndsWithinCapacity : Obligations.EveryFrameEndsWithinCapacity := by
  intro s bytes hinv hs hroom
  have hc := count_lt_capacity_of_inv hinv
  induction bytes generalizing s with
  | nil => exact absurd hroom hc.ne
  | cons b bytes ih =>
    obtain ⟨t, ht⟩ := exec_rxByte_completes hinv b
    obtain hfresh | ⟨hs', hcount⟩ := exec_rxByte_fresh_or_count_succ hs hc ht
    · exact ⟨1, t, le_rfl, Nat.succ_pos _, andThen_eq_next.2 ⟨t, ht, rfl⟩, hfresh⟩
    · have hinv' : t.Inv := exec_keeps_inv hinv ht
      have hroom' : t.count.toNat + bytes.length = 100 := by
        rw [List.length_cons] at hroom
        omega
      obtain ⟨k, u, -, hk, hu, hfresh⟩ := ih t hinv' hs' hroom' (count_lt_capacity_of_inv hinv')
      exact ⟨k + 1, u, Nat.succ_pos _, Nat.succ_le_succ hk, andThen_eq_next.2 ⟨t, ht, hu⟩, hfresh⟩

end Sys2Proof.Machine
